-- ==== Sys2Proof/Word.lean ====
section
/-!
DEFINITION. The bit vectors the spec writes down, each with the width of rule R12 (00_scope.md). The fixed
sizes of R8 (4096 bytes of memory, the program base 0x200, 3584 bytes of program, 80 bytes of font) are written as
numerals where they are used.
-/

namespace Sys2Proof

/-- Four bits: the class nibble and the X, Y and N fields of an instruction word (R12, R72). -/
abbrev Nibble := BitVec 4

/-- Eight bits: a general register, a timer, a byte of memory, the NN field (R12). -/
abbrev Byte := BitVec 8

/-- Twelve bits: the NNN field (R12). -/
abbrev Addr12 := BitVec 12

/-- Sixteen bits: an instruction word, `I`, `pc`, a stack entry, a key mask (R12). -/
abbrev Word := BitVec 16

/-- The index of a general register V0..VF, or of one of the sixteen keys (R21, R34). -/
abbrev Reg := Fin 16

/-- `FLAG_REG`: VF, the flag register (R8, R22). -/
abbrev vf : Reg := 15

end Sys2Proof
end

