-- ==== Sys2Proof/Config.lean ====
section
/-!
DEFINITION. The session configuration (R8, R9, 00_scope.md) and the free values of the step (R37, 10_state.md).
The values a session takes by default are in Machine/Session.lean.
-/

namespace Sys2Proof

/-- `SHIFT_SOURCE`: the register 8XY6 and 8XYE shift (R8, R140, R142). -/
inductive ShiftSource where
  | X
  | Y
  deriving DecidableEq, Repr

/-- `DRAW_EDGE`: what becomes of a sprite pixel past an edge of the screen (R8, R182). -/
inductive DrawEdge where
  | clip
  | wrap
  deriving DecidableEq, Repr

/-- `LOADSTORE_INDEX`: whether FX55 and FX65 advance `I` (R8, R166). -/
inductive LoadStoreIndex where
  | unchanged
  | advance
  deriving DecidableEq, Repr

/-- `VF_WRITE_ORDER`: which of flag and result a flag-setting ALU instruction writes last (R8, R131). -/
inductive VfWriteOrder where
  | flagThenResult
  | resultThenFlag
  deriving DecidableEq, Repr

/-- The session configuration: the parameters of R8 that are arguments of the model. `IPS` and `TICK_HZ` have no
semantic effect (R8, R237) and are not held (log 7). -/
structure Config where
  shiftSource    : ShiftSource
  drawEdge       : DrawEdge
  loadStoreIndex : LoadStoreIndex
  vfWriteOrder   : VfWriteOrder
  /-- `FONT_BASE`: the address of glyph 0 (R44). -/
  fontBase       : Nat
  /-- `FONT`: the font's bytes, glyph 0 first, each glyph's top row first (R44). -/
  font           : List Byte
  deriving DecidableEq, Repr

/-- FREE VALUE. The byte the `n`-th draw of a session gives CXNN: "a free input of the step with no law" (R145).
It has no body, so nothing can be proved of a draw that is not true of every byte (log 2). -/
opaque Config.freeByte : Nat → Byte

/-- FREE VALUE. The number that settles the `n`-th choice among several newly pressed keys (R197). It has no body
(log 3). -/
opaque Config.freeIndex : Nat → Nat

end Sys2Proof
end

