-- ==== Sys2Proof/Syntax.lean ====
section
/-!
DEFINITION. The decoded record of a word (R72) and the instructions, one constructor per row of the opcode map (R74).
-/

namespace Sys2Proof

/-- The decoded record of a word (R72, 30_encoding.md): the overlapping fields, before any question of legality. -/
structure Fields where
  op  : Nibble
  x   : Nibble
  y   : Nibble
  n   : Nibble
  nn  : Byte
  nnn : Addr12
  deriving DecidableEq, Repr

/-- The 34 instructions of the opcode map (R74), in the order of spec/opcode_table.json. Register fields are register
numbers; `y` of the shifts is kept although it is read only when `SHIFT_SOURCE = Y` (R85). -/
inductive Instr where
  /-- `00E0` CLS (R180). -/
  | cls
  /-- `00EE` RET (R105). -/
  | ret
  /-- `1NNN` JP NNN (R106). -/
  | jp (nnn : Addr12)
  /-- `2NNN` CALL NNN (R107). -/
  | call (nnn : Addr12)
  /-- `3XNN` SE VX, NN (R108). -/
  | seImm (x : Reg) (nn : Byte)
  /-- `4XNN` SNE VX, NN (R109). -/
  | sneImm (x : Reg) (nn : Byte)
  /-- `5XY0` SE VX, VY (R110). -/
  | seReg (x y : Reg)
  /-- `6XNN` LD VX, NN (R132). -/
  | ldImm (x : Reg) (nn : Byte)
  /-- `7XNN` ADD VX, NN (R133). -/
  | addImm (x : Reg) (nn : Byte)
  /-- `8XY0` LD VX, VY (R134). -/
  | ldReg (x y : Reg)
  /-- `8XY1` OR VX, VY (R135). -/
  | orReg (x y : Reg)
  /-- `8XY2` AND VX, VY (R136). -/
  | andReg (x y : Reg)
  /-- `8XY3` XOR VX, VY (R137). -/
  | xorReg (x y : Reg)
  /-- `8XY4` ADD VX, VY (R138). -/
  | addReg (x y : Reg)
  /-- `8XY5` SUB VX, VY (R139). -/
  | subReg (x y : Reg)
  /-- `8XY6` SHR VX {, VY} (R140). -/
  | shr (x y : Reg)
  /-- `8XY7` SUBN VX, VY (R141). -/
  | subnReg (x y : Reg)
  /-- `8XYE` SHL VX {, VY} (R142). -/
  | shl (x y : Reg)
  /-- `9XY0` SNE VX, VY (R111). -/
  | sneReg (x y : Reg)
  /-- `ANNN` LD I, NNN (R160). -/
  | ldI (nnn : Addr12)
  /-- `BNNN` JP V0, NNN (R112). -/
  | jpV0 (nnn : Addr12)
  /-- `CXNN` RND VX, NN (R145). -/
  | rnd (x : Reg) (nn : Byte)
  /-- `DXYN` DRW VX, VY, N (R181). -/
  | drw (x y : Reg) (n : Nibble)
  /-- `EX9E` SKP VX (R191). -/
  | skp (x : Reg)
  /-- `EXA1` SKNP VX (R192). -/
  | sknp (x : Reg)
  /-- `FX07` LD VX, DT (R193). -/
  | ldVxDt (x : Reg)
  /-- `FX0A` LD VX, K (R194). -/
  | ldVxK (x : Reg)
  /-- `FX15` LD DT, VX (R198). -/
  | ldDtVx (x : Reg)
  /-- `FX18` LD ST, VX (R199). -/
  | ldStVx (x : Reg)
  /-- `FX1E` ADD I, VX (R161). -/
  | addI (x : Reg)
  /-- `FX29` LD F, VX (R162). -/
  | ldF (x : Reg)
  /-- `FX33` LD B, VX (R163). -/
  | ldB (x : Reg)
  /-- `FX55` LD [I], VX (R164). -/
  | storeRegs (x : Reg)
  /-- `FX65` LD VX, [I] (R165). -/
  | loadRegs (x : Reg)
  deriving DecidableEq, Repr

end Sys2Proof
end

