-- ==== Sys2Proof/WellFormed.lean ====
section
/-!
DEFINITION. What is well formed: a decoded record that stands for an instruction (R75 to R80), a session
configuration, a program. Every term of `Instr` is well formed: its operand types hold exactly the values its fields
can take (R72), so no check of an instruction is left to make.
-/

namespace Sys2Proof

/-- The sub-operations of class 0x8 (R76). -/
def legalSub8 (n : Nibble) : Bool :=
  n ∈ [0x0#4, 0x1#4, 0x2#4, 0x3#4, 0x4#4, 0x5#4, 0x6#4, 0x7#4, 0xE#4]

/-- The low bytes of class 0xE (R77). -/
def legalLowE (nn : Byte) : Bool := nn ∈ [0x9E#8, 0xA1#8]

/-- The low bytes of class 0xF (R78). -/
def legalLowF (nn : Byte) : Bool :=
  nn ∈ [0x07#8, 0x0A#8, 0x15#8, 0x18#8, 0x1E#8, 0x29#8, 0x33#8, 0x55#8, 0x65#8]

/-- `legal(f)` of R100: the record stands for one of the 34 instructions, by the five rules R75 to R79; the other
classes "have no illegal words" (R80). -/
def Fields.legal (f : Fields) : Bool :=
  if f.op = 0x0 then f.nnn = 0x0E0 || f.nnn = 0x0EE
  else if f.op = 0x5 || f.op = 0x9 then f.n = 0
  else if f.op = 0x8 then legalSub8 f.n
  else if f.op = 0xE then legalLowE f.nn
  else if f.op = 0xF then legalLowF f.nn
  else true

/-- The font has its 80 bytes and lies inside memory: R241 writes `MEM[FONT_BASE + i]` for i in 0..79, and an address
is below 4096 (R52). So `FONT_BASE <= 0xFB0`, within the bound 0xFB4 that R25 names (log 6). -/
abbrev Config.wf (c : Config) : Prop := c.font.length = 80 ∧ c.fontBase + 80 ≤ 4096

/-- A program that a session accepts: at most 3584 bytes (R242). -/
abbrev programFits (p : List Byte) : Prop := p.length ≤ 3584

end Sys2Proof
end

