-- ==== Sys2Proof/Decode.lean ====
section
/-!
DEFINITION. From bytes to an instruction (R70 to R80, 30_encoding.md), total and rejecting by name, and after it the
encoder, written from the same opcode map (R74).
-/

namespace Sys2Proof

/-- Why bytes stand for no instruction. The machine raises IllegalInstruction for every reason but `truncated`
(R80), which the fetch reports first as MemoryOutOfBounds (R53). -/
inductive DecodeError where
  /-- Fewer than two bytes: an instruction is one 16-bit word (R70). -/
  | truncated
  /-- Class 0x0 other than 00E0 and 00EE (R75). -/
  | class0
  /-- 5XYn with n other than 0 (R79). -/
  | class5
  /-- 8XYn with n in 8, 9, A, B, C, D, F (R76). -/
  | class8
  /-- 9XYn with n other than 0 (R79). -/
  | class9
  /-- EXnn with nn other than 9E and A1 (R77). -/
  | classE
  /-- FXnn with nn not of R78. -/
  | classF
  deriving DecidableEq, Repr

/-- The decoded record of a word (R72): total, "every 16-bit value decodes to some record" (R71). -/
def fieldsOf (w : Word) : Fields where
  op  := w.extractLsb' 12 4
  x   := w.extractLsb' 8 4
  y   := w.extractLsb' 4 4
  n   := w.extractLsb' 0 4
  nn  := w.extractLsb' 0 8
  nnn := w.extractLsb' 0 12

/-- The register a field names: `X` and `Y` index the registers directly (R73). -/
def regOf (v : Nibble) : Reg := v.toFin

/-- Class 0x0 decodes on the whole word (R75). -/
def decodeClass0 (f : Fields) : Except DecodeError Instr :=
  match f.nnn with
  | 0x0E0#12 => .ok .cls
  | 0x0EE#12 => .ok .ret
  | _ => .error .class0

/-- Class 0x8 decodes on `N` (R76). -/
def decodeClass8 (f : Fields) : Except DecodeError Instr :=
  match f.n with
  | 0x0#4 => .ok (.ldReg (regOf f.x) (regOf f.y))
  | 0x1#4 => .ok (.orReg (regOf f.x) (regOf f.y))
  | 0x2#4 => .ok (.andReg (regOf f.x) (regOf f.y))
  | 0x3#4 => .ok (.xorReg (regOf f.x) (regOf f.y))
  | 0x4#4 => .ok (.addReg (regOf f.x) (regOf f.y))
  | 0x5#4 => .ok (.subReg (regOf f.x) (regOf f.y))
  | 0x6#4 => .ok (.shr (regOf f.x) (regOf f.y))
  | 0x7#4 => .ok (.subnReg (regOf f.x) (regOf f.y))
  | 0xE#4 => .ok (.shl (regOf f.x) (regOf f.y))
  | _ => .error .class8

/-- Class 0xE decodes on `NN` (R77). -/
def decodeClassE (f : Fields) : Except DecodeError Instr :=
  match f.nn with
  | 0x9E#8 => .ok (.skp (regOf f.x))
  | 0xA1#8 => .ok (.sknp (regOf f.x))
  | _ => .error .classE

/-- Class 0xF decodes on `NN` (R78). -/
def decodeClassF (f : Fields) : Except DecodeError Instr :=
  match f.nn with
  | 0x07#8 => .ok (.ldVxDt (regOf f.x))
  | 0x0A#8 => .ok (.ldVxK (regOf f.x))
  | 0x15#8 => .ok (.ldDtVx (regOf f.x))
  | 0x18#8 => .ok (.ldStVx (regOf f.x))
  | 0x1E#8 => .ok (.addI (regOf f.x))
  | 0x29#8 => .ok (.ldF (regOf f.x))
  | 0x33#8 => .ok (.ldB (regOf f.x))
  | 0x55#8 => .ok (.storeRegs (regOf f.x))
  | 0x65#8 => .ok (.loadRegs (regOf f.x))
  | _ => .error .classF

/-- The opcode map by class (R74). The last arm is class 0xF, the one value of four bits that is left. -/
def decodeFields (f : Fields) : Except DecodeError Instr :=
  match f.op with
  | 0x0#4 => decodeClass0 f
  | 0x1#4 => .ok (.jp f.nnn)
  | 0x2#4 => .ok (.call f.nnn)
  | 0x3#4 => .ok (.seImm (regOf f.x) f.nn)
  | 0x4#4 => .ok (.sneImm (regOf f.x) f.nn)
  | 0x5#4 => if f.n = 0 then .ok (.seReg (regOf f.x) (regOf f.y)) else .error .class5
  | 0x6#4 => .ok (.ldImm (regOf f.x) f.nn)
  | 0x7#4 => .ok (.addImm (regOf f.x) f.nn)
  | 0x8#4 => decodeClass8 f
  | 0x9#4 => if f.n = 0 then .ok (.sneReg (regOf f.x) (regOf f.y)) else .error .class9
  | 0xA#4 => .ok (.ldI f.nnn)
  | 0xB#4 => .ok (.jpV0 f.nnn)
  | 0xC#4 => .ok (.rnd (regOf f.x) f.nn)
  | 0xD#4 => .ok (.drw (regOf f.x) (regOf f.y) f.n)
  | 0xE#4 => decodeClassE f
  | _ => decodeClassF f

/-- The instruction a 16-bit word stands for. -/
def decodeWord (w : Word) : Except DecodeError Instr := decodeFields (fieldsOf w)

/-- The word two bytes make, "big-endian": the byte at the lower address is bits 15:8 (R53). -/
def wordOfBytes (hi lo : Byte) : Word := hi ++ lo

/-- The byte of a word that lies at the lower address (R53). -/
def hiByte (w : Word) : Byte := w.extractLsb' 8 8

/-- The byte of a word that lies at the higher address (R53). -/
def loByte (w : Word) : Byte := w.extractLsb' 0 8

/-- The instruction at the head of a list of bytes, and the bytes after it: every instruction is two bytes
(R70, R82). -/
def decodeBytes : List Byte → Except DecodeError (Instr × List Byte)
  | hi :: lo :: rest => (decodeWord (wordOfBytes hi lo)).map (fun i => (i, rest))
  | _ => .error .truncated

/-- The word of four nibbles, `op:4 | X:4 | Y:4 | N:4` (R72). -/
def wordXYN (op x y n : Nibble) : Word := op ++ x ++ y ++ n

/-- The word of a class, a register field and a low byte: `op:4 | X:4 | NN:8` (R72). -/
def wordXNN (op x : Nibble) (nn : Byte) : Word := op ++ x ++ nn

/-- The word of a class and an address field: `op:4 | NNN:12` (R72). -/
def wordNNN (op : Nibble) (nnn : Addr12) : Word := op ++ nnn

/-- The field that names a register (R73). -/
def fieldOf (r : Reg) : Nibble := BitVec.ofFin r

/-- The word of an instruction: the pattern column of the opcode map (R74). -/
def encode : Instr → Word
  | .cls           => 0x00E0
  | .ret           => 0x00EE
  | .jp nnn        => wordNNN 0x1 nnn
  | .call nnn      => wordNNN 0x2 nnn
  | .seImm x nn    => wordXNN 0x3 (fieldOf x) nn
  | .sneImm x nn   => wordXNN 0x4 (fieldOf x) nn
  | .seReg x y     => wordXYN 0x5 (fieldOf x) (fieldOf y) 0x0
  | .ldImm x nn    => wordXNN 0x6 (fieldOf x) nn
  | .addImm x nn   => wordXNN 0x7 (fieldOf x) nn
  | .ldReg x y     => wordXYN 0x8 (fieldOf x) (fieldOf y) 0x0
  | .orReg x y     => wordXYN 0x8 (fieldOf x) (fieldOf y) 0x1
  | .andReg x y    => wordXYN 0x8 (fieldOf x) (fieldOf y) 0x2
  | .xorReg x y    => wordXYN 0x8 (fieldOf x) (fieldOf y) 0x3
  | .addReg x y    => wordXYN 0x8 (fieldOf x) (fieldOf y) 0x4
  | .subReg x y    => wordXYN 0x8 (fieldOf x) (fieldOf y) 0x5
  | .shr x y       => wordXYN 0x8 (fieldOf x) (fieldOf y) 0x6
  | .subnReg x y   => wordXYN 0x8 (fieldOf x) (fieldOf y) 0x7
  | .shl x y       => wordXYN 0x8 (fieldOf x) (fieldOf y) 0xE
  | .sneReg x y    => wordXYN 0x9 (fieldOf x) (fieldOf y) 0x0
  | .ldI nnn       => wordNNN 0xA nnn
  | .jpV0 nnn      => wordNNN 0xB nnn
  | .rnd x nn      => wordXNN 0xC (fieldOf x) nn
  | .drw x y n     => wordXYN 0xD (fieldOf x) (fieldOf y) n
  | .skp x         => wordXNN 0xE (fieldOf x) 0x9E
  | .sknp x        => wordXNN 0xE (fieldOf x) 0xA1
  | .ldVxDt x      => wordXNN 0xF (fieldOf x) 0x07
  | .ldVxK x       => wordXNN 0xF (fieldOf x) 0x0A
  | .ldDtVx x      => wordXNN 0xF (fieldOf x) 0x15
  | .ldStVx x      => wordXNN 0xF (fieldOf x) 0x18
  | .addI x        => wordXNN 0xF (fieldOf x) 0x1E
  | .ldF x         => wordXNN 0xF (fieldOf x) 0x29
  | .ldB x         => wordXNN 0xF (fieldOf x) 0x33
  | .storeRegs x   => wordXNN 0xF (fieldOf x) 0x55
  | .loadRegs x    => wordXNN 0xF (fieldOf x) 0x65

/-- The two bytes of an instruction in the order they lie in memory (R53). -/
def encodeBytes (i : Instr) : List Byte := [hiByte (encode i), loByte (encode i)]

/-- The instruction the decoder reads from the word `w` of `nbits` bits, bits above `nbits` zero: its two bytes are
laid out high byte first, as the machine stores them (R53). -/
def decodeTableWord (nbits w : Nat) : Option Instr :=
  match decodeBytes [hiByte (BitVec.ofNat 16 (w % 2 ^ nbits)), loByte (BitVec.ofNat 16 (w % 2 ^ nbits))] with
  | .ok (i, _) => some i
  | .error _ => none

end Sys2Proof
end

