-- ==== Sys2Proof/Machine/Session.lean ====
section
/-!
DEFINITION. What a session is constructed with: the conventional font (R44), the default configuration (R8), and the
byte every memory address holds before anything is written (R40, R60, R240, R241).
-/

namespace Sys2Proof.Machine

/-- The conventional font table of R44, one row per glyph 0..F. The spec takes it "from general knowledge" (G1 of
93_implementation_defined.md, D22); log 10. -/
def conventionalFont : List Byte :=
  [0xF0, 0x90, 0x90, 0x90, 0xF0] ++ [0x20, 0x60, 0x20, 0x20, 0x70] ++
  [0xF0, 0x10, 0xF0, 0x80, 0xF0] ++ [0xF0, 0x10, 0xF0, 0x10, 0xF0] ++
  [0x90, 0x90, 0xF0, 0x10, 0x10] ++ [0xF0, 0x80, 0xF0, 0x10, 0xF0] ++
  [0xF0, 0x80, 0xF0, 0x90, 0xF0] ++ [0xF0, 0x10, 0x20, 0x40, 0x40] ++
  [0xF0, 0x90, 0xF0, 0x90, 0xF0] ++ [0xF0, 0x90, 0xF0, 0x10, 0xF0] ++
  [0xF0, 0x90, 0xF0, 0x90, 0x90] ++ [0xE0, 0x90, 0xE0, 0x90, 0xE0] ++
  [0xF0, 0x80, 0x80, 0x80, 0xF0] ++ [0xE0, 0x90, 0x90, 0x90, 0xE0] ++
  [0xF0, 0x80, 0xF0, 0x80, 0xF0] ++ [0xF0, 0x80, 0xF0, 0x80, 0x80]

/-- The defaults of R8. -/
def defaultConfig : Config where
  shiftSource    := .X
  drawEdge       := .clip
  loadStoreIndex := .unchanged
  vfWriteOrder   := .flagThenResult
  fontBase       := 0x050
  font           := conventionalFont

/-- What an address that nothing has written reads as: the font's byte inside `FONT_BASE .. FONT_BASE+79`, 0 everywhere
else (R40, R60, R241). -/
def initialByte (c : Config) (a : Nat) : Byte :=
  if c.fontBase ≤ a ∧ a < c.fontBase + 80 then c.font.getD (a - c.fontBase) 0 else 0

end Sys2Proof.Machine
end

