-- ==== Sys2Proof/Machine/State.lean ====
section
/-!
DEFINITION. The architectural state, the tuple of R20 (10_state.md) under the spec's own names, with three fields of the
model's own (`config`, `draws`, `schedule`), and the state a session is constructed in (R40, R240).
-/

namespace Sys2Proof.Machine

/-- The error kinds of R211. A kind is not an outcome of a step: a step that raises one answers a NEXT state whose
`FAULT` records it (R213), so no step of this machine ends in `Host.Outcome.fault`, which is safe: nothing the spec lets
run is stopped (log 1). -/
inductive Fault where
  /-- Raised by a step whose word is illegal (R80). Safe: the record is the effect the spec gives. -/
  | illegalInstruction
  /-- Raised by 2NNN at depth 16 (R107). Safe: the record is the effect the spec gives. -/
  | stackOverflow
  /-- Raised by 00EE with the stack empty (R105). Safe: the record is the effect the spec gives. -/
  | stackUnderflow
  /-- Raised by the fetch (R53), DXYN, FX33, FX55, FX65 (R68) and by EX9E, EXA1 on a key index above 0xF (R190). Safe:
  the record is the effect the spec gives. -/
  | memoryOutOfBounds
  /-- Raised by program loading, never by a step (R242). Safe: the record is the effect the spec gives. -/
  | programTooLarge
  deriving DecidableEq, Repr

/-- Why a step could have no meaning. -/
inductive Refusal where
  /-- Raised by an arm of `exec` for an instruction without a meaning; no arm is left that does. Safe: nothing can be
  proved of a step that is refused. -/
  | notModelled (mnemonic : String)
  deriving DecidableEq, Repr

/-- What every meaning and every step answers. -/
abbrev Result (σ : Type) := Host.Outcome σ Fault Refusal

/-- The fault record of R213. The record's `code` is a function of its kind (R212) and is not held twice: `Fault.code`
in Machine/Ops.lean gives it. -/
structure FaultRecord where
  kind : Fault
  /-- The address of the instruction that raised the error. -/
  pc   : Word
  /-- The raw instruction word; none for a fetch that failed and for a rejected load. -/
  word : Option Word
  /-- The offending address or key index of MemoryOutOfBounds, none for the other kinds. -/
  addr : Option Nat
  deriving DecidableEq, Repr

/-- The key-wait sub-state `KW` (R35): `waiting` means an FX0A is suspended. -/
inductive KeyWait where
  | none
  | waiting (dst : Reg) (prev : Word)
  deriving DecidableEq, Repr

/-- A host operation that acts on the state between steps, and the step itself (R230, R231, R232). -/
inductive HostOp where
  | step
  | tick
  | setKeys (m : Word)
  deriving DecidableEq, Repr

/-- Memory as the bytes that differ from what construction left, by address: the canonical form is `Memory.wf` of
Machine/Ops.lean. -/
abbrev Memory := List Host.Cell

/-- The display buffer `D[r][c]`, 32 rows of 64 one-bit pixels, true when on (R32, R33). -/
abbrev Display := Vector (Vector Bool 64) 32

/-- The architectural state (R20). -/
structure State where
  /-- The general registers V0..VF (R21). -/
  x      : Vector Byte 16
  /-- The index register (R24). -/
  I      : Word
  /-- The program counter (R26). -/
  pc     : Word
  /-- The call stack's entries (R28). -/
  S      : Vector Word 16
  /-- The call stack's depth, 0..16 (R28). -/
  SP     : Fin 17
  /-- The delay timer (R30). -/
  DT     : Byte
  /-- The sound timer (R31). -/
  ST     : Byte
  /-- Memory (R50). -/
  MEM    : Memory
  /-- The display buffer (R32). -/
  D      : Display
  /-- The key snapshot, bit k set when key k is pressed (R34). -/
  K      : Word
  /-- The key-wait sub-state (R35). -/
  KW     : KeyWait
  /-- The fault state; `none` while the session runs (R36). -/
  FAULT  : Option FaultRecord
  /-- The MODEL's field: the session configuration, a parameter of the step in the spec (R9, R37); log 4. -/
  config : Config
  /-- The MODEL's field: how many free values the session has drawn; log 2, log 3. -/
  draws  : Nat
  /-- The MODEL's field: the operations the host invokes next, first one first; when it is empty the host invokes
  `step` (R7, R237); log 5. -/
  schedule : List HostOp
  deriving DecidableEq, Repr

/-- Session construction with a configuration (R40, R240, R241). Memory lists nothing: an address that nothing has
written reads as `initialByte`, the zeroed memory with the font. The stack entries hold "no value" in R40: 0 here
(log 8). -/
def State.construct (c : Config) : State where
  x      := Vector.replicate 16 0
  I      := 0
  pc     := 0x200
  S      := Vector.replicate 16 0
  SP     := 0
  DT     := 0
  ST     := 0
  MEM    := []
  D      := Vector.replicate 32 (Vector.replicate 64 false)
  K      := 0
  KW     := .none
  FAULT  := none
  config := c
  draws  := 0
  schedule := []

/-- The machine right after reset: a session constructed with the default configuration (R8, R240). -/
def State.reset : State := State.construct defaultConfig

end Sys2Proof.Machine
end

