-- ==== Sys2Proof/Machine/Ops.lean ====
section
/-!
DEFINITION. The named operations over registers, the program counter, the stack and memory, the fault entry (R213), the
fetch (R53), the free draws (R145, R197) and the key-wait poll (R195).
-/

namespace Sys2Proof.Machine

/-! ## Registers and the program counter -/

/-- Read general register `r` (R11, R21). -/
def State.getV (s : State) (r : Reg) : Byte := s.x[r.val]

/-- Write general register `r` (R11, R21). -/
def State.setV (s : State) (r : Reg) (b : Byte) : State := { s with x := s.x.set r.val b }

/-- Write the index register. -/
def State.setI (s : State) (v : Word) : State := { s with I := v }

/-- `pc <- target` (R11). -/
def State.setPc (s : State) (target : Word) : State := { s with pc := target }

/-- `pc <- pc + 2`, the end of every instruction that is no jump (R102). -/
def State.advance (s : State) : State := s.setPc (s.pc + 2)

/-- The end of a conditional skip: pc + 4 when the condition holds, pc + 2 when it does not (R103). -/
def State.skipIf (s : State) (cond : Bool) : State := s.setPc (s.pc + if cond then 4 else 2)

/-- Write the delay timer. -/
def State.setDT (s : State) (b : Byte) : State := { s with DT := b }

/-- Write the sound timer. -/
def State.setST (s : State) (b : Byte) : State := { s with ST := b }

/-- Write the display buffer. -/
def State.setD (s : State) (d : Display) : State := { s with D := d }

/-- Write the key-wait sub-state. -/
def State.setKW (s : State) (k : KeyWait) : State := { s with KW := k }

/-- Write the key snapshot. -/
def State.setK (s : State) (m : Word) : State := { s with K := m }

/-- Take one more free value. -/
def State.countDraw (s : State) : State := { s with draws := s.draws + 1 }

/-- Replace the host's schedule. -/
def State.setSchedule (s : State) (ops : List HostOp) : State := { s with schedule := ops }

/-! ## Taking an error: the fault entry -/

/-- The spec's numbers for the error kinds (R212, decision D16). -/
def Fault.code : Fault → Nat
  | .illegalInstruction => 1
  | .stackOverflow      => 2
  | .stackUnderflow     => 3
  | .memoryOutOfBounds  => 4
  | .programTooLarge    => 5

/-- The `code` field of a fault record (R212, R213). -/
def FaultRecord.code (r : FaultRecord) : Nat := r.kind.code

/-- Fault entry: `raise kind(...)` records the kind, the address of the instruction, its raw word and the offending
address, and writes nothing else (R11, R213). There is no return from it (R217). -/
def State.raise (s : State) (kind : Fault) (word : Option Word) (addr : Option Nat) : State :=
  { s with FAULT := some { kind := kind, pc := s.pc, word := word, addr := addr } }

/-! ## Memory and the address decoder -/

/-- The byte at address `a`: the listed one, else what construction left there (R40, R50). -/
def Memory.read (c : Config) : Memory → Nat → Byte
  | [], a => initialByte c a
  | (k, v) :: rest, a => if k = a then v else Memory.read c rest a

/-- A cell put before a list of cells, left out when it holds what its address reads as unlisted. -/
def Memory.consCell (c : Config) (a : Nat) (b : Byte) (m : Memory) : Memory :=
  if b = initialByte c a then m else (a, b) :: m

/-- `MEM[a] <- b`, keeping the list in canonical form (R52, R59). -/
def Memory.write (c : Config) : Memory → Nat → Byte → Memory
  | [], a, b => Memory.consCell c a b []
  | (k, v) :: rest, a, b =>
    if a < k then Memory.consCell c a b ((k, v) :: rest)
    else if a = k then Memory.consCell c a b rest
    else (k, v) :: Memory.write c rest a b

/-- The canonical form: addresses strictly rising, each below 4096 (R52), and no cell that holds what its address reads
as unlisted. -/
abbrev Memory.wf (c : Config) (m : Memory) : Prop :=
  m.Pairwise (fun p q => p.1 < q.1) ∧ ∀ p ∈ m, p.1 < 4096 ∧ p.2 ≠ initialByte c p.1

/-- `MemRead(a, 1)` at an address the caller has checked (R52). -/
def State.readByte (s : State) (a : Nat) : Byte := Memory.read s.config s.MEM a

/-- `MemWrite(a, 1, b)` at an address the caller has checked (R52). -/
def State.writeByte (s : State) (a : Nat) (b : Byte) : State := { s with MEM := Memory.write s.config s.MEM a b }

/-- The bytes at `a`, `a + 1`, …, `a + n - 1`, in that order. -/
def State.readBytes (s : State) (a n : Nat) : List Byte := (List.range n).map (fun k => s.readByte (a + k))

/-- Store bytes at `a`, `a + 1`, …, in that order. -/
def State.writeBytes (s : State) (a : Nat) : List Byte → State
  | [] => s
  | b :: bs => (s.writeByte a b).writeBytes (a + 1) bs

/-- The address decoder over the `n` addresses from `base` on: the lowest one that is 4096 or more, none when all of
them name a byte of memory. Addresses are natural numbers, never reduced modulo 4096 (R52, R68). -/
def outOfBounds (base n : Nat) : Option Nat :=
  if n ≠ 0 ∧ 4096 < base + n then some (max base 4096) else none

/-- Every address of an access is checked before any byte is read or written; a bad one raises MemoryOutOfBounds for the
lowest and leaves the rest of the state alone (R68). -/
def State.guardRange (s : State) (word : Word) (base n : Nat) (body : State) : State :=
  match outOfBounds base n with
  | some a => s.raise .memoryOutOfBounds (some word) (some a)
  | none => body

/-! ## Block transfers between registers and memory -/

/-- Registers `k`, `k + 1`, … take the bytes of a list in order; bytes past VF fall away (no instruction has any). -/
def fillRegs (v : Vector Byte 16) (k : Nat) : List Byte → Vector Byte 16
  | [] => v
  | b :: bs => fillRegs (v.setIfInBounds k b) (k + 1) bs

/-- The values of V0..VX (R164). -/
def State.regsUpTo (s : State) (x : Reg) : List Byte := s.x.toList.take (x.val + 1)

/-- V0, V1, … take the bytes of a list in order (R165). -/
def State.fillFromV0 (s : State) (bytes : List Byte) : State := { s with x := fillRegs s.x 0 bytes }

/-! ## The call stack -/

/-- `push(v)`: none when the stack is full (R29). -/
def State.push (s : State) (v : Word) : Option State :=
  if h : s.SP.val < 16 then
    some { s with S := s.S.set s.SP.val v, SP := ⟨s.SP.val + 1, by omega⟩ }
  else none

/-- `pop()`: the top and the state without it, none when the stack is empty (R29). -/
def State.pop (s : State) : Option (Word × State) :=
  if h : 0 < s.SP.val then
    some (s.S[s.SP.val - 1]'(by omega), { s with SP := ⟨s.SP.val - 1, by omega⟩ })
  else none

/-! ## The fetch -/

/-- The instruction word at pc, big-endian, or the lowest address the fetch names that is 4096 or more (R53). There is
no alignment requirement (R55). -/
def State.fetch (s : State) : Except Nat Word :=
  match outOfBounds s.pc.toNat 2 with
  | some a => .error a
  | none => .ok (wordOfBytes (s.readByte s.pc.toNat) (s.readByte (s.pc.toNat + 1)))

/-! ## The free draws -/

/-- `draw_byte()`: the byte of this draw (R145). -/
def State.drawByte (s : State) : Byte := Config.freeByte s.draws

/-- The keys of a mask, lowest first (R34). -/
def keysOf (m : Word) : List Reg := (List.finRange 16).filter (fun k => m.getLsbD k.val)

/-- `draw_key(m)`: none for an empty mask, the one key of a mask that holds one, and a free choice among the keys of any
other mask (R197). -/
def State.drawKey (s : State) (m : Word) : Option Reg :=
  match keysOf m with
  | [] => none
  | [k] => some k
  | k :: ks => some ((k :: ks).getD (Config.freeIndex s.draws % (k :: ks).length) k)

/-! ## The key-wait poll -/

/-- The keys pressed now that were not pressed at the previous step (R195). -/
def newlyPressed (now prev : Word) : Word := now &&& ~~~prev

/-- A step taken while `KW = waiting(dst, prev)`: a newly pressed key completes the wait, any other snapshot is
remembered and pc is held (R195, R196). -/
def State.poll (s : State) (dst : Reg) (prev : Word) : State :=
  match s.drawKey (newlyPressed s.K prev) with
  | some k => (((s.setV dst (BitVec.ofNat 8 k.val)).setKW .none).countDraw).advance
  | none => s.setKW (.waiting dst s.K)

end Sys2Proof.Machine
end

