-- ==== Sys2Proof/Machine/Operands.lean ====
section
/-!
DEFINITION. The operand forms: the source of a shift (R140, R142), the key an instruction names (R190), a glyph's
address (R162), decimal digits (R163), the unmasked and masked sums with I (R161, R166), a computed jump (R112), and the
placement of sprite bits (R181, R182).
-/

namespace Sys2Proof.Machine

/-- The value a shift works on: VX or VY by `SHIFT_SOURCE` (R140, R142). -/
def State.shiftOperand (s : State) (x y : Reg) : Byte :=
  match s.config.shiftSource with
  | .X => s.getV x
  | .Y => s.getV y

/-- The key whose index equals a register's value; none above 0xF (R190). -/
def keyIndex (v : Byte) : Option Reg := if h : v.toNat < 16 then some ⟨v.toNat, h⟩ else none

/-- Whether key `k` is pressed in the snapshot (R34). -/
def State.keyDown (s : State) (k : Reg) : Bool := s.K.getLsbD k.val

/-- The address of the glyph of a value's low nibble: `FONT_BASE + 5 * (v & 0xF)` (R162). -/
def glyphAddress (c : Config) (v : Byte) : Word := BitVec.ofNat 16 (c.fontBase + 5 * (v.toNat % 16))

/-- The three decimal digits of a value, hundreds first (R163). -/
def bcdDigits (v : Byte) : List Byte :=
  [BitVec.ofNat 8 (v.toNat / 100), BitVec.ofNat 8 (v.toNat / 10 % 10), BitVec.ofNat 8 (v.toNat % 10)]

/-- The unclamped sum `I + vx` of FX1E (R161). -/
def indexSum (i : Word) (v : Byte) : Nat := i.toNat + v.toNat

/-- `n & 0xFFF`: a value written into I (R161, R166). -/
def maskIndex (n : Nat) : Word := BitVec.ofNat 16 (n % 4096)

/-- `I` after FX55 or FX65 with last register `x`: unchanged, or the first address after the range (R166). -/
def State.indexAfterTransfer (s : State) (x : Reg) : Word :=
  match s.config.loadStoreIndex with
  | .unchanged => s.I
  | .advance => maskIndex (s.I.toNat + x.val + 1)

/-- An address field as a 16-bit value (R73). -/
def zextAddr (nnn : Addr12) : Word := nnn.zeroExtend 16

/-- `NNN + V0`, not masked (R112). -/
def computedTarget (nnn : Addr12) (v0 : Byte) : Word := zextAddr nnn + v0.zeroExtend 16

/-! ## The display -/

/-- `D[r][c]` (R33). -/
def Display.pixel (d : Display) (r : Fin 32) (c : Fin 64) : Bool := d[r.val][c.val]

/-- `D[r][c] <- D[r][c] ^ 1` (R181). -/
def Display.flip (d : Display) (r : Fin 32) (c : Fin 64) : Display :=
  d.set r.val (d[r.val].set c.val (!d[r.val][c.val]))

/-- The display with every pixel off (R180). -/
def Display.clear : Display := Vector.replicate 32 (Vector.replicate 64 false)

/-- `place(cx, cy)`: the row and column a sprite bit lands on, none for a clipped one (R182). -/
def place (edge : DrawEdge) (cx cy : Nat) : Option (Fin 32 × Fin 64) :=
  match edge with
  | .clip => if h : cx < 64 ∧ cy < 32 then some (⟨cy, h.2⟩, ⟨cx, h.1⟩) else none
  | .wrap => some (⟨cy % 32, by omega⟩, ⟨cx % 64, by omega⟩)

/-- One on bit of a sprite at screen position `(cx, cy)`: the pixel is flipped, and a pixel that was on is a collision
(R181). The pair is the display and the collision so far. -/
def drawBit (edge : DrawEdge) (acc : Display × Bool) (cx cy : Nat) : Display × Bool :=
  match place edge cx cy with
  | some (r, c) => (acc.1.flip r c, acc.2 || acc.1.pixel r c)
  | none => acc

/-- One sprite byte on screen row `y`: bit 7 is the leftmost pixel (R182). -/
def drawRow (edge : DrawEdge) (x0 y : Nat) (b : Byte) (acc : Display × Bool) : Display × Bool :=
  (List.range 8).foldl (fun acc c => if b.getLsbD (7 - c) then drawBit edge acc (x0 + c) y else acc) acc

/-- The sprite's bytes on the rows from `y` on (R181). -/
def drawSprite (edge : DrawEdge) (x0 y : Nat) : List Byte → Display × Bool → Display × Bool
  | [], acc => acc
  | b :: bs, acc => drawSprite edge x0 (y + 1) bs (drawRow edge x0 y b acc)

end Sys2Proof.Machine
end

