-- ==== Sys2Proof/Machine/Flags.lean ====
section
/-!
DEFINITION. Every value an instruction leaves in the flag register VF as a side effect (R22), and the order in which flag
and result are written (R131).
-/

namespace Sys2Proof.Machine

/-- A flag as a register's value: 0 or 1 (R131). -/
def flagByte (f : Bool) : Byte := if f then 1 else 0

/-- The carry of 8XY4: the unclamped sum exceeds 255 (R138). -/
def carryFlag (a b : Byte) : Byte := flagByte (255 < a.toNat + b.toNat)

/-- The not-borrow flag of `a - b`: `a >= b` (R139, R141). -/
def noBorrowFlag (a b : Byte) : Byte := flagByte (b.toNat ≤ a.toNat)

/-- The bit a right shift moves out, `v & 1` (R140). -/
def shiftedOutRight (v : Byte) : Byte := v &&& 1

/-- The bit a left shift moves out, `v >> 7` (R142). -/
def shiftedOutLeft (v : Byte) : Byte := v >>> 7

/-- The overflow flag of FX1E: the unclamped sum exceeds 0xFFF (R161). -/
def indexOverflowFlag (i : Word) (v : Byte) : Byte := flagByte (0xFFF < indexSum i v)

/-- `write_fr(f, r)`: the flag to VF and the result to VX, in the order of `VF_WRITE_ORDER`; with X = 0xF the later write
wins (R131). -/
def State.writeFlagResult (s : State) (x : Reg) (f r : Byte) : State :=
  match s.config.vfWriteOrder with
  | .flagThenResult => (s.setV vf f).setV x r
  | .resultThenFlag => (s.setV x r).setV vf f

end Sys2Proof.Machine
end

