-- ==== Sys2Proof/Machine/Alu.lean ====
section
/-!
DEFINITION. The meanings of the register loads, the ALU instructions and the random byte (41_register_alu.md). Every
operand is read before anything is written (R101); 8-bit arithmetic wraps modulo 256 (R130).
-/

namespace Sys2Proof.Machine

/-- `6XNN` LD VX, NN (R132). -/
def execLdImm (x : Reg) (nn : Byte) (s : State) : Result State := .next (s.setV x nn).advance

/-- `7XNN` ADD VX, NN: no flag (R133). -/
def execAddImm (x : Reg) (nn : Byte) (s : State) : Result State := .next (s.setV x (s.getV x + nn)).advance

/-- `8XY0` LD VX, VY (R134). -/
def execLdReg (x y : Reg) (s : State) : Result State := .next (s.setV x (s.getV y)).advance

/-- `8XY1` OR VX, VY: no flag (R135). -/
def execOrReg (x y : Reg) (s : State) : Result State := .next (s.setV x (s.getV x ||| s.getV y)).advance

/-- `8XY2` AND VX, VY: no flag (R136). -/
def execAndReg (x y : Reg) (s : State) : Result State := .next (s.setV x (s.getV x &&& s.getV y)).advance

/-- `8XY3` XOR VX, VY: no flag (R137). -/
def execXorReg (x y : Reg) (s : State) : Result State := .next (s.setV x (s.getV x ^^^ s.getV y)).advance

/-- `8XY4` ADD VX, VY with carry out (R138). -/
def execAddReg (x y : Reg) (s : State) : Result State :=
  .next (s.writeFlagResult x (carryFlag (s.getV x) (s.getV y)) (s.getV x + s.getV y)).advance

/-- `8XY5` SUB VX, VY: X minus Y, not-borrow flag (R139). -/
def execSubReg (x y : Reg) (s : State) : Result State :=
  .next (s.writeFlagResult x (noBorrowFlag (s.getV x) (s.getV y)) (s.getV x - s.getV y)).advance

/-- `8XY6` SHR VX {, VY} (R140). -/
def execShr (x y : Reg) (s : State) : Result State :=
  .next (s.writeFlagResult x (shiftedOutRight (s.shiftOperand x y)) (s.shiftOperand x y >>> 1)).advance

/-- `8XY7` SUBN VX, VY: Y minus X, not-borrow flag (R141). -/
def execSubnReg (x y : Reg) (s : State) : Result State :=
  .next (s.writeFlagResult x (noBorrowFlag (s.getV y) (s.getV x)) (s.getV y - s.getV x)).advance

/-- `8XYE` SHL VX {, VY} (R142). -/
def execShl (x y : Reg) (s : State) : Result State :=
  .next (s.writeFlagResult x (shiftedOutLeft (s.shiftOperand x y)) (s.shiftOperand x y <<< 1)).advance

/-- `CXNN` RND VX, NN: a free byte masked by NN (R145). -/
def execRnd (x : Reg) (nn : Byte) (s : State) : Result State :=
  .next ((s.setV x (s.drawByte &&& nn)).countDraw).advance

end Sys2Proof.Machine
end

