-- ==== Sys2Proof/Machine/Control.lean ====
section
/-!
DEFINITION. The meanings of the control-transfer instructions (40_control_flow.md, R105 to R112).
-/

namespace Sys2Proof.Machine

/-- `00EE` RET: the popped address is the new pc, with nothing added (R105). -/
def execRet (s : State) : Result State :=
  match s.pop with
  | none => .next (s.raise .stackUnderflow (some (encode .ret)) none)
  | some (target, t) => .next (t.setPc target)

/-- `1NNN` JP NNN (R106). -/
def execJp (nnn : Addr12) (s : State) : Result State := .next (s.setPc (zextAddr nnn))

/-- `2NNN` CALL NNN: the pushed value is the address of the word after the CALL (R107). -/
def execCall (nnn : Addr12) (s : State) : Result State :=
  match s.push (s.pc + 2) with
  | none => .next (s.raise .stackOverflow (some (encode (.call nnn))) none)
  | some t => .next (t.setPc (zextAddr nnn))

/-- `3XNN` SE VX, NN (R108). -/
def execSeImm (x : Reg) (nn : Byte) (s : State) : Result State := .next (s.skipIf (s.getV x = nn))

/-- `4XNN` SNE VX, NN (R109). -/
def execSneImm (x : Reg) (nn : Byte) (s : State) : Result State := .next (s.skipIf (s.getV x ≠ nn))

/-- `5XY0` SE VX, VY (R110). -/
def execSeReg (x y : Reg) (s : State) : Result State := .next (s.skipIf (s.getV x = s.getV y))

/-- `9XY0` SNE VX, VY (R111). -/
def execSneReg (x y : Reg) (s : State) : Result State := .next (s.skipIf (s.getV x ≠ s.getV y))

/-- `BNNN` JP V0, NNN: a jump, with nothing added (R112, C6). -/
def execJpV0 (nnn : Addr12) (s : State) : Result State := .next (s.setPc (computedTarget nnn (s.getV 0)))

end Sys2Proof.Machine
end

