-- ==== Sys2Proof/Machine/Draw.lean ====
section
/-!
DEFINITION. The meanings of the display instructions (43_display.md, R180 to R183).
-/

namespace Sys2Proof.Machine

/-- `00E0` CLS (R180). -/
def execCls (s : State) : Result State := .next (s.setD Display.clear).advance

/-- The display and the collision flag DXYN leaves: the start coordinates wrap, the sprite's bytes are those at I
(R181). -/
def State.drawn (s : State) (x y : Reg) (n : Nibble) : Display × Bool :=
  drawSprite s.config.drawEdge ((s.getV x).toNat % 64) ((s.getV y).toNat % 32) (s.readBytes s.I.toNat n.toNat)
    (s.D, false)

/-- `DXYN` DRW VX, VY, N: VF is written after VX and VY are read (R181). -/
def execDrw (x y : Reg) (n : Nibble) (s : State) : Result State :=
  .next (s.guardRange (encode (.drw x y n)) s.I.toNat n.toNat
    ((s.setD (s.drawn x y n).1).setV vf (flagByte (s.drawn x y n).2)).advance)

end Sys2Proof.Machine
end

