-- ==== Sys2Proof/Machine/Index.lean ====
section
/-!
DEFINITION. The meanings of the index-register and memory-transfer instructions (42_index_memory.md, R160 to R166).
-/

namespace Sys2Proof.Machine

/-- `ANNN` LD I, NNN (R160). -/
def execLdI (nnn : Addr12) (s : State) : Result State := .next (s.setI (zextAddr nnn)).advance

/-- `FX1E` ADD I, VX: the sum is masked to 12 bits and VF records what the mask lost (R161). -/
def execAddI (x : Reg) (s : State) : Result State :=
  .next ((s.setV vf (indexOverflowFlag s.I (s.getV x))).setI (maskIndex (indexSum s.I (s.getV x)))).advance

/-- `FX29` LD F, VX (R162). -/
def execLdF (x : Reg) (s : State) : Result State := .next (s.setI (glyphAddress s.config (s.getV x))).advance

/-- `FX33` LD B, VX: three digits at I, I+1, I+2 (R163). -/
def execLdB (x : Reg) (s : State) : Result State :=
  .next (s.guardRange (encode (.ldB x)) s.I.toNat 3 (s.writeBytes s.I.toNat (bcdDigits (s.getV x))).advance)

/-- `FX55` LD [I], VX: V0..VX to memory from I on (R164, R166). -/
def execStoreRegs (x : Reg) (s : State) : Result State :=
  .next (s.guardRange (encode (.storeRegs x)) s.I.toNat (x.val + 1)
    ((s.writeBytes s.I.toNat (s.regsUpTo x)).setI (s.indexAfterTransfer x)).advance)

/-- `FX65` LD VX, [I]: V0..VX from memory from I on (R165, R166). -/
def execLoadRegs (x : Reg) (s : State) : Result State :=
  .next (s.guardRange (encode (.loadRegs x)) s.I.toNat (x.val + 1)
    ((s.fillFromV0 (s.readBytes s.I.toNat (x.val + 1))).setI (s.indexAfterTransfer x)).advance)

end Sys2Proof.Machine
end

