-- ==== Sys2Proof/Machine/Input.lean ====
section
/-!
DEFINITION. The meanings of the key and timer instructions (44_input_timer.md, R190 to R199).
-/

namespace Sys2Proof.Machine

/-- A skip on the key VX names: a register value above 0xF names no key and raises MemoryOutOfBounds with that value in
`addr` (R190). -/
def State.skipOnKey (s : State) (word : Word) (v : Byte) (pressed : Bool) : State :=
  match keyIndex v with
  | none => s.raise .memoryOutOfBounds (some word) (some v.toNat)
  | some k => s.skipIf (s.keyDown k == pressed)

/-- `EX9E` SKP VX (R191). -/
def execSkp (x : Reg) (s : State) : Result State := .next (s.skipOnKey (encode (.skp x)) (s.getV x) true)

/-- `EXA1` SKNP VX (R192). -/
def execSknp (x : Reg) (s : State) : Result State := .next (s.skipOnKey (encode (.sknp x)) (s.getV x) false)

/-- `FX07` LD VX, DT (R193). -/
def execLdVxDt (x : Reg) (s : State) : Result State := .next (s.setV x s.DT).advance

/-- `FX0A` LD VX, K, entry: the destination and the keys pressed now are remembered; pc is held and no register is
written (R194). -/
def execLdVxK (x : Reg) (s : State) : Result State := .next (s.setKW (.waiting x s.K))

/-- `FX15` LD DT, VX (R198). -/
def execLdDtVx (x : Reg) (s : State) : Result State := .next (s.setDT (s.getV x)).advance

/-- `FX18` LD ST, VX (R199). -/
def execLdStVx (x : Reg) (s : State) : Result State := .next (s.setST (s.getV x)).advance

end Sys2Proof.Machine
end

