-- ==== Sys2Proof/Machine/HostInterface.lean ====
section
/-!
DEFINITION. The operations of the host besides the step (R231 to R236, 60_exceptions.md): the Timer Driver's tick, the
key snapshot, program loading, the read-outs, and the placing of one word where the next step fetches.
-/

namespace Sys2Proof.Machine

/-- One count of a timer: down by 1, never below zero (R222). -/
def countDown (t : Byte) : Byte := if t = 0 then 0 else t - 1

/-- `tick()`: both timers count down; nothing after a fault; the key-wait makes no difference (R222). -/
def State.tick (s : State) : State :=
  if s.FAULT.isSome then s else (s.setDT (countDown s.DT)).setST (countDown s.ST)

/-- `n` ticks (R223). -/
def State.ticks (s : State) : Nat → State
  | 0 => s
  | n + 1 => (s.ticks n).tick

/-- `set_keys(m)`: the host's write of the key snapshot (R232). -/
def State.setKeys (s : State) (m : Word) : State := s.setK m

/-- `load(bytes)`: place a program at 0x200, or reject one that is too long with no byte written. For a state that
construction left, before its first step (R235, R242). -/
def State.load (s : State) (p : List Byte) : State :=
  if programFits p then s.writeBytes 0x200 p
  else { s with FAULT := some { kind := .programTooLarge, pc := 0x200, word := none, addr := none } }

/-- `read_display()` (R233). -/
def State.readDisplay (s : State) : Display := s.D

/-- `read_sound()`: `sound_active = (ST != 0)` (R224, R234). -/
def State.readSound (s : State) : Bool := s.ST ≠ 0

/-- `read_fault()` (R236). -/
def State.readFault (s : State) : Option FaultRecord := s.FAULT

/-- A state whose next step fetches and runs the word `w`: its two bytes stand at pc, no fault is recorded, no key-wait
is pending and the host's next operation is a step. A pc at which no word can be fetched (R53) is set to 0x200 first. -/
def State.placeWord (s : State) (w : Word) : State :=
  let at_ := if s.pc.toNat + 1 < 4096 then s.pc else 0x200
  { s with pc := at_, KW := .none, FAULT := none, schedule := [],
           MEM := Memory.write s.config (Memory.write s.config s.MEM at_.toNat (hiByte w)) (at_.toNat + 1) (loByte w) }

end Sys2Proof.Machine
end

