-- ==== Sys2Proof/Machine/Cycle.lean ====
section
/-!
DEFINITION. The step cycle of the core (R100) and the host's turn: which of the atomic operations happens next (R7,
R230 to R232, R237).
-/

namespace Sys2Proof.Machine

/-- Fetch, decode, execute (R100): the first error in that order is the one raised (R215). -/
def State.runInstruction (s : State) : Result State :=
  match s.fetch with
  | .error a => .next (s.raise .memoryOutOfBounds none (some a))
  | .ok w =>
    match decodeWord w with
    | .error _ => .next (s.raise .illegalInstruction (some w) none)
    | .ok i => exec i s

/-- `step()` of R100: nothing after a fault, one poll while a key-wait is pending, else one instruction. -/
def State.coreStep (s : State) : Result State :=
  if s.FAULT.isSome then .next s
  else
    match s.KW with
    | .waiting dst prev => .next (s.poll dst prev)
    | .none => s.runInstruction

/-- The next atomic operation of the host: the first of its schedule, a step when the schedule is empty. After a fault
the session has ended and nothing changes (R36, R217); log 5. -/
def State.hostTurn (s : State) : Result State :=
  if s.FAULT.isSome then .next s
  else
    match s.schedule with
    | [] => s.coreStep
    | .step :: rest => (s.setSchedule rest).coreStep
    | .tick :: rest => .next (s.setSchedule rest).tick
    | .setKeys m :: rest => .next ((s.setSchedule rest).setKeys m)

end Sys2Proof.Machine
end

