-- ==== Sys2Proof/Machine/Step.lean ====
section
/-!
DEFINITION. One step of the machine, and the state whose next step runs a given word.
-/

namespace Sys2Proof.Machine

/-- One atomic operation: the core's step (R100), or the tick or key update the host's schedule puts before it. -/
def step (s : State) : Host.Outcome State Fault Refusal := s.hostTurn

/-- `s` with the instruction word `w` of `nbits` bits standing where the next step fetches it. It stands for the program
load of R242 (log 9). -/
def State.withFetchWord (s : State) (nbits w : Nat) : State := s.placeWord (BitVec.ofNat 16 (w % 2 ^ nbits))

end Sys2Proof.Machine
end

