-- ==== Sys2Proof/Safety.lean ====
section
/-!
DEFINITION. What the statements are written in: the frame of an instruction, the invariant of the machine, a session as
the host builds it, a run that raises no error.
-/

namespace Sys2Proof.Machine

/-- The parts of the state an instruction can write, the general registers apart. -/
inductive Part where
  | I
  | pc
  | stack
  | DT
  | ST
  | MEM
  | D
  | KW
  | FAULT
  | draws
  deriving DecidableEq, Repr

/-- The FRAME: from `s` to `t` nothing changes but the registers of `regs` and the parts of `parts`. Memory is compared
byte by byte as it reads, the display pixel by pixel. The key snapshot, the configuration and the host's schedule are
never among the parts: no instruction writes them (R9, R34). -/
structure Keeps (regs : List Reg) (parts : List Part) (s t : State) : Prop where
  regs     : ∀ r, r ∉ regs → t.getV r = s.getV r
  index    : Part.I ∉ parts → t.I = s.I
  pc       : Part.pc ∉ parts → t.pc = s.pc
  depth    : Part.stack ∉ parts → t.SP = s.SP
  stack    : Part.stack ∉ parts → ∀ k : Fin 16, t.S[k.val] = s.S[k.val]
  delay    : Part.DT ∉ parts → t.DT = s.DT
  sound    : Part.ST ∉ parts → t.ST = s.ST
  memory   : Part.MEM ∉ parts → ∀ a, t.readByte a = s.readByte a
  display  : Part.D ∉ parts → ∀ r c, t.D.pixel r c = s.D.pixel r c
  keyWait  : Part.KW ∉ parts → t.KW = s.KW
  fault    : Part.FAULT ∉ parts → t.FAULT = s.FAULT
  draws    : Part.draws ∉ parts → t.draws = s.draws
  keys     : t.K = s.K
  config   : t.config = s.config
  schedule : t.schedule = s.schedule

/-- The registers V0..VX. -/
def regsThrough (x : Reg) : List Reg := (List.finRange 16).filter (fun k => k ≤ x)

/-- The general registers each instruction writes: the last column of R23. FX0A's register is written by the poll that
completes its wait (R195). -/
def writes : Instr → List Reg
  | .cls | .ret | .jp _ | .call _ => []
  | .seImm _ _ | .sneImm _ _ | .seReg _ _ | .sneReg _ _ => []
  | .ldImm x _ | .addImm x _ => [x]
  | .ldReg x _ | .orReg x _ | .andReg x _ | .xorReg x _ => [x]
  | .addReg x _ | .subReg x _ | .subnReg x _ | .shr x _ | .shl x _ => [x, vf]
  | .ldI _ | .jpV0 _ => []
  | .rnd x _ => [x]
  | .drw _ _ _ => [vf]
  | .skp _ | .sknp _ => []
  | .ldVxDt x | .ldVxK x => [x]
  | .ldDtVx _ | .ldStVx _ | .ldF _ | .ldB _ => []
  | .addI _ => [vf]
  | .storeRegs _ => []
  | .loadRegs x => regsThrough x

/-- The instructions that write VF as a side effect: "exactly 8XY4, 8XY5, 8XY6, 8XY7, 8XYE, DXYN and FX1E" (R22). -/
def writesVfAsFlag : Instr → Bool
  | .addReg _ _ | .subReg _ _ | .shr _ _ | .subnReg _ _ | .shl _ _ | .drw _ _ _ | .addI _ => true
  | .cls | .ret | .jp _ | .call _ | .seImm _ _ | .sneImm _ _ | .seReg _ _ | .ldImm _ _ | .addImm _ _ | .ldReg _ _
  | .orReg _ _ | .andReg _ _ | .xorReg _ _ | .sneReg _ _ | .ldI _ | .jpV0 _ | .rnd _ _ | .skp _ | .sknp _
  | .ldVxDt _ | .ldVxK _ | .ldDtVx _ | .ldStVx _ | .ldF _ | .ldB _ | .storeRegs _ | .loadRegs _ => false

/-- The instructions that set pc to their target (R102). -/
def isJump : Instr → Bool
  | .ret | .jp _ | .call _ | .jpV0 _ => true
  | .cls | .seImm _ _ | .sneImm _ _ | .seReg _ _ | .ldImm _ _ | .addImm _ _ | .ldReg _ _ | .orReg _ _ | .andReg _ _
  | .xorReg _ _ | .addReg _ _ | .subReg _ _ | .shr _ _ | .subnReg _ _ | .shl _ _ | .sneReg _ _ | .ldI _ | .rnd _ _
  | .drw _ _ _ | .skp _ | .sknp _ | .ldVxDt _ | .ldVxK _ | .ldDtVx _ | .ldStVx _ | .addI _ | .ldF _ | .ldB _
  | .storeRegs _ | .loadRegs _ => false

/-- The conditional-skip instructions (R103). -/
def isSkip : Instr → Bool
  | .seImm _ _ | .sneImm _ _ | .seReg _ _ | .sneReg _ _ | .skp _ | .sknp _ => true
  | .cls | .ret | .jp _ | .call _ | .ldImm _ _ | .addImm _ _ | .ldReg _ _ | .orReg _ _ | .andReg _ _ | .xorReg _ _
  | .addReg _ _ | .subReg _ _ | .shr _ _ | .subnReg _ _ | .shl _ _ | .ldI _ | .jpV0 _ | .rnd _ _ | .drw _ _ _
  | .ldVxDt _ | .ldVxK _ | .ldDtVx _ | .ldStVx _ | .addI _ | .ldF _ | .ldB _ | .storeRegs _ | .loadRegs _ => false

/-- The register an instruction names as its destination in a field (R22, R23): VX of a load, a sum, a shift; V0..VX of
FX65. DXYN and FX1E name none: they write VF without naming it. -/
def namedDestinations : Instr → List Reg
  | .ldImm x _ | .addImm x _ | .ldReg x _ | .orReg x _ | .andReg x _ | .xorReg x _ | .addReg x _ | .subReg x _
  | .subnReg x _ | .shr x _ | .shl x _ | .rnd x _ | .ldVxDt x | .ldVxK x => [x]
  | .loadRegs x => regsThrough x
  | .cls | .ret | .jp _ | .call _ | .seImm _ _ | .sneImm _ _ | .seReg _ _ | .sneReg _ _ | .ldI _ | .jpV0 _
  | .drw _ _ _ | .skp _ | .sknp _ | .ldDtVx _ | .ldStVx _ | .addI _ | .ldF _ | .ldB _ | .storeRegs _ => []

/-- Flag `f` and result `r` are in VF and VX; when X = 0xF one register holds both, and it is the one `VF_WRITE_ORDER`
writes last (R131, the spec's own decision D4). -/
def HoldsFlagAndResult (s : State) (x : Reg) (f r : Nat) (t : State) : Prop :=
  (x ≠ vf → (t.getV x).toNat = r ∧ (t.getV vf).toNat = f) ∧
  (x = vf → (t.getV vf).toNat = if s.config.vfWriteOrder = .flagThenResult then r else f)

/-- The fault entry from `s`: the record names the kind, the instruction's address, its word and the offending address,
and nothing else changes (R11, R213). -/
def RaisesIn (s : State) (kind : Fault) (word : Option Word) (addr : Option Nat) (t : State) : Prop :=
  t.FAULT = some { kind := kind, pc := s.pc, word := word, addr := addr } ∧ Keeps [] [.FAULT] s t

/-- The pixel that screen position `(cx, cy)` is, under an edge policy, written out from R182: under `clip` the position
itself, which must lie on the screen; under `wrap` column `cx mod 64`, row `cy mod 32`. -/
abbrev LandsOn (edge : DrawEdge) (cx cy : Nat) (r : Fin 32) (c : Fin 64) : Prop :=
  (edge = .clip → cx < 64 ∧ cy < 32 ∧ c.val = cx ∧ r.val = cy) ∧
  (edge = .wrap → c.val = cx % 64 ∧ r.val = cy % 32)

/-- A sprite bit lands on pixel `(r, c)`: bit `7 - j` of the sprite's `k`-th byte is on, and column `x0 + j`, row
`y0 + k` is that pixel (R182). -/
def Covers (edge : DrawEdge) (x0 y0 : Nat) (bs : List Byte) (r : Fin 32) (c : Fin 64) : Prop :=
  ∃ k < bs.length, ∃ j < 8, (bs.getD k 0).getLsbD (7 - j) = true ∧ LandsOn edge (x0 + j) (y0 + k) r c

/-- The sprite of a DXYN lands on pixel `(r, c)`: its bytes are the `n` bytes at I, its start is VX mod 64, VY mod 32
(R181). -/
def State.spriteCovers (s : State) (x y : Reg) (n : Nibble) (r : Fin 32) (c : Fin 64) : Prop :=
  Covers s.config.drawEdge ((s.getV x).toNat % 64) ((s.getV y).toNat % 32) (s.readBytes s.I.toNat n.toNat) r c

/-- The INVARIANT of the machine. -/
structure SessionInv (s : State) : Prop where
  /-- The configuration is one a session can have. -/
  config : s.config.wf
  /-- Memory is in its canonical form. -/
  memory : Memory.wf s.config s.MEM
  /-- `I <= 0xFFF` (R25). -/
  index  : s.I.toNat ≤ 0xFFF
  /-- "the largest value a step can give it is 0x10FE" (R27). -/
  pc     : s.pc.toNat ≤ 0x10FE
  /-- A live return address is the address of the word after a CALL, at most 0x1000 (R107). -/
  stack  : ∀ k : Fin 16, k.val < s.SP.val → (s.S[k.val]).toNat ≤ 0x1000
  /-- While a key-wait is pending, "pc holds the address of that FX0A, `dst` is its X field" (R35). -/
  wait   : ∀ dst prev, s.KW = .waiting dst prev → s.fetch = .ok (encode (.ldVxK dst))

/-- A session as the host builds it: constructed with `c` (R240), loaded with `p` (R242), and then driven through the
operations `ops`, in that order, and steps after them (R237). -/
def session (c : Config) (p : List Byte) (ops : List HostOp) : State :=
  ((State.construct c).load p).setSchedule ops

/-- The host's next operation on `s` is a core step, taken from `u`: `s` itself when the schedule is empty, `s` without
the schedule's first entry when that entry is a step (R230, R237; log 5). -/
def State.stepsFrom (s u : State) : Prop :=
  (s.schedule = [] ∧ u = s) ∨ ∃ rest, s.schedule = .step :: rest ∧ u = s.setSchedule rest

/-- A SAFE RUN: `k` operations from `s` raise no error. A recorded error stays (R217), so the last state shows it. -/
def SafeRun (k : Nat) (s : State) : Prop := ∃ t, Sys2Proof.core.run k s = .next t ∧ t.FAULT = none

end Sys2Proof.Machine
end

