-- ==== Sys2Proof/Certificates/Slice0/Obligations.lean ====
section
/-!
DEFINITION. The statements for the provers. Where a docstring says "the spec's own decision D<n>", the clause rests on a
choice of 92_eei_decisions.md and not on a plain sentence of the source; "log <n>" names a row of notes/assumptions.
-/

open Sys2Proof Sys2Proof.Machine

/-! ## Encoding -/

/-- R86, with its word 0xD4A3, and one word written out from the opcode map (R74) for each class that has more than one
layout. -/
def Obligations.SampleWordsDecode : Prop :=
  (fieldsOf 0xD4A3 = { op := 0xD, x := 4, y := 0xA, n := 3, nn := 0xA3, nnn := 0x4A3 } ∧
    decodeWord 0xD4A3 = .ok (.drw 4 0xA 3)) ∧
  decodeWord 0x00E0 = .ok .cls ∧ decodeWord 0x00EE = .ok .ret ∧
  decodeWord 0x1234 = .ok (.jp 0x234) ∧ decodeWord 0x2210 = .ok (.call 0x210) ∧
  decodeWord 0x3142 = .ok (.seImm 1 0x42) ∧ decodeWord 0x5340 = .ok (.seReg 3 4) ∧
  decodeWord 0x9340 = .ok (.sneReg 3 4) ∧ decodeWord 0x8014 = .ok (.addReg 0 1) ∧
  decodeWord 0x8027 = .ok (.subnReg 0 2) ∧ decodeWord 0x830E = .ok (.shl 3 0) ∧
  decodeWord 0xC50F = .ok (.rnd 5 0x0F) ∧ decodeWord 0xE19E = .ok (.skp 1) ∧
  decodeWord 0xF50A = .ok (.ldVxK 5) ∧ decodeWord 0xF255 = .ok (.storeRegs 2) ∧
  decodeWord 0xF265 = .ok (.loadRegs 2)

/-- Decode and encode agree: every instruction, with every operand its fields can hold, is read back from its word and
from its two bytes, and the bytes after it are left (R70, R74, R82). -/
def Obligations.DecodeOfEncodeIsTheInstruction : Prop :=
  ∀ (i : Instr) (rest : List Byte),
    decodeWord (encode i) = .ok i ∧ decodeBytes (encodeBytes i ++ rest) = .ok (i, rest)

/-- A word that decodes is the word of the instruction it decodes to, so no two words decode to one instruction and a
fault record that holds `encode i` holds the word fetched. -/
def Obligations.EncodeOfDecodeIsTheWord : Prop :=
  ∀ (w : Word) (i : Instr), decodeWord w = .ok i → encode i = w

/-- R80: the listed words are exactly the words that decode to no instruction, and a step that fetches one, with an
empty schedule or with one that starts with a step (log 5), raises IllegalInstruction. That 5XYn and 9XYn with n other
than 0 are among them is R79's, the spec's own decision D28. -/
def Obligations.ListedWordsAreExactlyTheIllegalOnes : Prop :=
  ∀ w : Word,
    let f := fieldsOf w
    let listed : Prop :=
      (f.op = 0x0 ∧ w ≠ 0x00E0 ∧ w ≠ 0x00EE) ∨
      ((f.op = 0x5 ∨ f.op = 0x9) ∧ f.n ≠ 0) ∨
      (f.op = 0x8 ∧ f.n ∈ [0x8#4, 0x9#4, 0xA#4, 0xB#4, 0xC#4, 0xD#4, 0xF#4]) ∨
      (f.op = 0xE ∧ f.nn ∉ [0x9E#8, 0xA1#8]) ∨
      (f.op = 0xF ∧ f.nn ∉ [0x07#8, 0x0A#8, 0x15#8, 0x18#8, 0x1E#8, 0x29#8, 0x33#8, 0x55#8, 0x65#8])
    ((∃ i, decodeWord w = .ok i) ↔ ¬ listed) ∧
    (f.legal = true ↔ ¬ listed) ∧
    ∀ s u : State, s.FAULT = none → s.KW = .none → s.stepsFrom u → s.fetch = .ok w → listed →
      ∃ t r, step s = .next t ∧ t.FAULT = some r ∧ r.kind = .illegalInstruction

/-! ## The step -/

/-- A step runs the decoded instruction (R100): when the two bytes at pc decode to `i`, no fault is recorded and no
key-wait is pending, the step is `exec i`; a scheduled step first leaves the schedule (the model's field, log 5). -/
def Obligations.StepRunsTheInstructionAtPc : Prop :=
  ∀ (s : State) (i : Instr), s.FAULT = none → s.KW = .none → s.pc.toNat + 1 < 4096 →
    decodeBytes [s.readByte s.pc.toNat, s.readByte (s.pc.toNat + 1)] = .ok (i, []) →
    (s.schedule = [] → step s = exec i s) ∧
    (∀ rest, s.schedule = .step :: rest → step s = exec i (s.setSchedule rest))

/-- The host's turn (R230, R237; log 5): with no fault recorded a step is the core's step of R100, poll, failed fetch and
illegal word among its cases, taken from the state itself when the schedule is empty and from the state without the
schedule's first entry when that entry is a step. -/
def Obligations.StepIsTheCoreStep : Prop :=
  ∀ s : State, s.FAULT = none →
    (s.schedule = [] → step s = s.coreStep) ∧
    (∀ rest, s.schedule = .step :: rest → step s = (s.setSchedule rest).coreStep)

/-- R53: the word is read big-endian, and when one of its two addresses is 4096 or more the step raises
MemoryOutOfBounds with no word and the first such address (the spec's own decision D1), with an empty schedule and with
one that starts with a step (log 5). -/
def Obligations.FetchIsBigEndianAndChecked : Prop :=
  ∀ s : State,
    (s.pc.toNat + 1 < 4096 → ∃ w, s.fetch = .ok w ∧
      w.toNat = 256 * (s.readByte s.pc.toNat).toNat + (s.readByte (s.pc.toNat + 1)).toNat) ∧
    (4096 ≤ s.pc.toNat + 1 → s.FAULT = none → s.KW = .none → ∀ u : State, s.stepsFrom u →
      ∃ t, step s = .next t ∧ RaisesIn u .memoryOutOfBounds none
        (some (if 4096 ≤ s.pc.toNat then s.pc.toNat else s.pc.toNat + 1)) t)

/-- R36, R217 (the spec's own decision D33): once a fault is recorded no step and no tick changes any state. That a
scheduled set_keys changes nothing either, and that the schedule stays as it is, is the model's choice (log 5). -/
def Obligations.FaultedSessionIsFrozen : Prop :=
  ∀ (s : State) (k : Nat), s.FAULT ≠ none →
    Sys2Proof.core.run k s = .next s ∧ s.coreStep = .next s ∧ s.ticks k = s

/-- R213, R216 (the spec's own decision D15): a step that records a fault writes nothing else; the record holds the
address of the instruction, the word fetched (none when the fetch failed) and an address exactly for
MemoryOutOfBounds. -/
def Obligations.FaultsArePrecise : Prop :=
  ∀ (s t : State) (r : FaultRecord), s.FAULT = none → s.coreStep = .next t → t.FAULT = some r →
    t = { s with FAULT := some r } ∧ r.pc = s.pc ∧ (r.addr.isSome = true ↔ r.kind = .memoryOutOfBounds) ∧
    r.kind ≠ .programTooLarge ∧ (∀ w, s.fetch = .ok w → r.word = some w) ∧
    (∀ a, s.fetch = .error a → r.word = none ∧ r.addr = some a)

/-- No operation stops the machine: an error is recorded in the state (R213), so every operation from every state
answers a next state, and so does every run (log 1: the model's reading of the FAULT element of R20; log 5: the
schedule). -/
def Obligations.EveryOperationAnswersANextState : Prop :=
  ∀ (s : State) (k : Nat), (∃ t, step s = .next t) ∧ ∃ t, Sys2Proof.core.run k s = .next t

/-- The invariant is kept by every operation: memory stays canonical, `I` within 12 bits (R25), pc and the live return
addresses within their bounds (R27, the spec's own decisions D2, D3), and a pending key-wait stands at its own FX0A
(R35, D12). The operations are those of the model's schedule (log 5); the configuration is one of log 6; the form of
memory is the model's (log 15). -/
def Obligations.EveryOperationKeepsTheInvariant : Prop :=
  ∀ s t : State, SessionInv s → step s = .next t → SessionInv t

/-- The invariant holds after construction (R40, R240, the spec's own decision D21) with any well-formed configuration
(log 6), and so at reset. -/
def Obligations.ConstructionMeetsTheInvariant : Prop :=
  (∀ c : Config, c.wf → SessionInv (State.construct c)) ∧ SessionInv State.reset

/-- R25, R27 over whole sessions: whatever configuration, program and schedule the host chooses, after any number of
operations `I <= 0xFFF`, pc <= 0x10FE, memory is canonical and every live return address is at most 0x1000. It rests on
the spec's own decisions D2, D3, D26 and on log 5 (the schedule), log 6 (the configuration), log 9 (the load) and log 15
(the form of memory). -/
def Obligations.EverySessionStaysInBounds : Prop :=
  ∀ (c : Config) (p : List Byte) (ops : List HostOp) (k : Nat), c.wf →
    ∃ t, Sys2Proof.core.run k (session c p ops) = .next t ∧
      t.I.toNat ≤ 0xFFF ∧ t.pc.toNat ≤ 0x10FE ∧ Memory.wf c t.MEM ∧
      ∀ j : Fin 16, j.val < t.SP.val → (t.S[j.val]).toNat ≤ 0x1000

/-- R9 (the spec's own decision D35): no operation changes the session's configuration, a field of the model's State
(log 4). -/
def Obligations.ConfigurationIsFixed : Prop :=
  (∀ s t : State, step s = .next t → t.config = s.config) ∧
  ∀ (s : State) (p : List Byte) (m : Word),
    s.tick.config = s.config ∧ (s.setKeys m).config = s.config ∧ (s.load p).config = s.config

/-! ## Construction and loading -/

/-- R40, R240 (the spec's own decision D21 for SP, the timers, the display, K, KW and FAULT): what construction leaves.
The stack entries have no value in R40 and are left out; the configuration is one of log 6. -/
def Obligations.ConstructionZeroesTheState : Prop :=
  ∀ c : Config, c.wf →
    let s := State.construct c
    (∀ r, s.getV r = 0) ∧ s.I = 0 ∧ s.pc = 0x200 ∧ s.SP = 0 ∧ s.DT = 0 ∧ s.ST = 0 ∧
    (∀ r k, s.D.pixel r k = false) ∧ s.K = 0 ∧ s.KW = .none ∧ s.FAULT = none ∧
    (∀ a, (∀ i < 80, a ≠ c.fontBase + i) → s.readByte a = 0)

/-- R241: `MEM[FONT_BASE + i]` is `FONT[i]` for i in 0..79, and the default FONT_BASE is 0x050. -/
def Obligations.ConstructionLoadsTheFont : Prop :=
  (∀ (c : Config) (i : Nat), c.wf → i < 80 →
    (State.construct c).readByte (c.fontBase + i) = c.font.getD i 0) ∧
  defaultConfig.fontBase = 0x050

/-- R242 (the spec's own decision D26): an accepted program stands at 0x200 and nothing else changes; one longer than
3584 bytes is rejected, memory is as construction left it and the session has ended (D33). -/
def Obligations.LoadPlacesTheProgram : Prop :=
  ∀ (c : Config) (p : List Byte),
    let s := State.construct c
    (p.length ≤ 3584 →
      (∀ a, (s.load p).readByte a =
        if 0x200 ≤ a ∧ a < 0x200 + p.length then p.getD (a - 0x200) 0 else s.readByte a) ∧
      Keeps [] [.MEM] s (s.load p)) ∧
    (3584 < p.length → RaisesIn s .programTooLarge none none (s.load p) ∧ step (s.load p) = .next (s.load p))

/-- The host's turn (R231, R232, R237; log 5): a scheduled tick or key update is that operation and nothing else; the
operation leaves the schedule. -/
def Obligations.ScheduledHostOperationsRun : Prop :=
  ∀ (s : State) (rest : List HostOp) (m : Word), s.FAULT = none →
    (s.schedule = .tick :: rest → ∃ t, step s = .next t ∧ t.schedule = rest ∧
      t.DT.toNat = s.DT.toNat - 1 ∧ t.ST.toNat = s.ST.toNat - 1 ∧
      t = { s with DT := t.DT, ST := t.ST, schedule := rest }) ∧
    (s.schedule = .setKeys m :: rest → step s = .next { s with K := m, schedule := rest })

/-! ## Control transfer -/

/-- R105: a return pops the new pc, with nothing added, and on an empty stack raises StackUnderflow; a return address
of 0x1000 makes the next fetch fail. -/
def Obligations.RetPopsThePc : Prop :=
  decodeWord 0x00EE = .ok .ret ∧ ∀ s : State,
    (s.SP = 0 → ∃ t r, exec .ret s = .next t ∧ t.FAULT = some r ∧
      r.kind = .stackUnderflow ∧ r.pc = s.pc ∧ r.word = some 0x00EE ∧ Keeps [] [.FAULT] s t) ∧
    (∀ h : 0 < s.SP.val, ∃ t, exec .ret s = .next t ∧ t.pc = s.S[s.SP.val - 1]'(by omega) ∧
      t.SP.val = s.SP.val - 1 ∧ (∀ k : Fin 16, t.S[k.val] = s.S[k.val]) ∧ Keeps [] [.pc, .stack] s t ∧
      (t.pc = 0x1000 → t.fetch = .error 0x1000))

/-- R106: a jump sets pc to NNN and nothing else; after a jump to 0xFFF the next fetch fails. -/
def Obligations.JpSetsThePc : Prop :=
  ∀ (nnn : Addr12) (s : State), decodeWord (wordNNN 0x1 nnn) = .ok (.jp nnn) ∧
    ∃ t, exec (.jp nnn) s = .next t ∧ t.pc.toNat = nnn.toNat ∧ Keeps [] [.pc] s t ∧
      (nnn = 0xFFF → t.fetch = .error 0x1000)

/-- R107: a call pushes the address of the word after it and jumps; at depth 16 it raises StackOverflow. -/
def Obligations.CallPushesTheReturnAddress : Prop :=
  ∀ (nnn : Addr12) (s : State), decodeWord (wordNNN 0x2 nnn) = .ok (.call nnn) ∧
    (s.SP = 16 → ∃ t r, exec (.call nnn) s = .next t ∧ t.FAULT = some r ∧
      r.kind = .stackOverflow ∧ r.pc = s.pc ∧ r.word = some (wordNNN 0x2 nnn) ∧ Keeps [] [.FAULT] s t) ∧
    (∀ h : s.SP.val < 16, ∃ t, exec (.call nnn) s = .next t ∧ t.pc.toNat = nnn.toNat ∧
      t.SP.val = s.SP.val + 1 ∧ t.S[s.SP.val] = s.pc + 2 ∧
      (∀ k : Fin 16, k.val ≠ s.SP.val → t.S[k.val] = s.S[k.val]) ∧ Keeps [] [.pc, .stack] s t)

/-- R108, R109: the skips on an immediate. -/
def Obligations.SkipsOnAnImmediate : Prop :=
  ∀ (x : Reg) (nn : Byte) (s : State),
    decodeWord (wordXNN 0x3 (fieldOf x) nn) = .ok (.seImm x nn) ∧
    decodeWord (wordXNN 0x4 (fieldOf x) nn) = .ok (.sneImm x nn) ∧
    (∃ t, exec (.seImm x nn) s = .next t ∧ t.pc = (if s.getV x = nn then s.pc + 4 else s.pc + 2) ∧
      Keeps [] [.pc] s t) ∧
    (∃ t, exec (.sneImm x nn) s = .next t ∧ t.pc = (if s.getV x ≠ nn then s.pc + 4 else s.pc + 2) ∧
      Keeps [] [.pc] s t)

/-- R110, R111: the skips on two registers; with N other than 0 the word is illegal (R79, the spec's own decision D28),
and a step that fetches it, with an empty schedule or with one that starts with a step (log 5), raises
IllegalInstruction. -/
def Obligations.SkipsOnTwoRegisters : Prop :=
  ∀ (x y : Reg) (s : State),
    decodeWord (wordXYN 0x5 (fieldOf x) (fieldOf y) 0) = .ok (.seReg x y) ∧
    decodeWord (wordXYN 0x9 (fieldOf x) (fieldOf y) 0) = .ok (.sneReg x y) ∧
    (∀ n : Nibble, n ≠ 0 → ∀ v u : State, v.FAULT = none → v.KW = .none → v.stepsFrom u →
      (v.fetch = .ok (wordXYN 0x5 (fieldOf x) (fieldOf y) n) ∨ v.fetch = .ok (wordXYN 0x9 (fieldOf x) (fieldOf y) n)) →
      ∃ t r, step v = .next t ∧ t.FAULT = some r ∧ r.kind = .illegalInstruction) ∧
    (∃ t, exec (.seReg x y) s = .next t ∧ t.pc = (if s.getV x = s.getV y then s.pc + 4 else s.pc + 2) ∧
      Keeps [] [.pc] s t) ∧
    (∃ t, exec (.sneReg x y) s = .next t ∧ t.pc = (if s.getV x ≠ s.getV y then s.pc + 4 else s.pc + 2) ∧
      Keeps [] [.pc] s t)

/-- R112 (the spec's own decision D3: the sum is not masked): pc is NNN + V0, with no +2. -/
def Obligations.JpV0AddsRegisterZero : Prop :=
  ∀ (nnn : Addr12) (s : State), decodeWord (wordNNN 0xB nnn) = .ok (.jpV0 nnn) ∧
    ∃ t, exec (.jpV0 nnn) s = .next t ∧ t.pc.toNat = nnn.toNat + (s.getV 0).toNat ∧ Keeps [] [.pc] s t ∧
      (0xFFF ≤ nnn.toNat + (s.getV 0).toNat → ∃ a, t.fetch = .error a)

/-- A call and then a return come back to the address after the call, with the stack's live entries and everything but
pc as before (R105, R107; the source's property W4). -/
def Obligations.CallThenRetComesBack : Prop :=
  ∀ (nnn : Addr12) (s : State), s.SP.val < 16 →
    ∃ t u, exec (.call nnn) s = .next t ∧ exec .ret t = .next u ∧ u.pc = s.pc + 2 ∧ u.SP = s.SP ∧
      (∀ k : Fin 16, k.val < s.SP.val → u.S[k.val] = s.S[k.val]) ∧ Keeps [] [.pc, .stack] s u

/-! ## Register loads and the ALU -/

/-- R132, R133: load and add immediate; the sum wraps modulo 256 and no flag is written. -/
def Obligations.ImmediatesLoadAndAdd : Prop :=
  ∀ (x : Reg) (nn : Byte) (s : State),
    decodeWord (wordXNN 0x6 (fieldOf x) nn) = .ok (.ldImm x nn) ∧
    decodeWord (wordXNN 0x7 (fieldOf x) nn) = .ok (.addImm x nn) ∧
    (∃ t, exec (.ldImm x nn) s = .next t ∧ t.getV x = nn ∧ t.pc = s.pc + 2 ∧ Keeps [x] [.pc] s t) ∧
    (∃ t, exec (.addImm x nn) s = .next t ∧ (t.getV x).toNat = ((s.getV x).toNat + nn.toNat) % 256 ∧
      t.pc = s.pc + 2 ∧ Keeps [x] [.pc] s t)

/-- R134 to R137: copy, or, and, exclusive or, bit by bit; no flag is written. -/
def Obligations.CopyAndLogicWriteOnlyVx : Prop :=
  ∀ (x y : Reg) (s : State),
    decodeWord (wordXYN 0x8 (fieldOf x) (fieldOf y) 0x0) = .ok (.ldReg x y) ∧
    decodeWord (wordXYN 0x8 (fieldOf x) (fieldOf y) 0x1) = .ok (.orReg x y) ∧
    decodeWord (wordXYN 0x8 (fieldOf x) (fieldOf y) 0x2) = .ok (.andReg x y) ∧
    decodeWord (wordXYN 0x8 (fieldOf x) (fieldOf y) 0x3) = .ok (.xorReg x y) ∧
    (∃ t, exec (.ldReg x y) s = .next t ∧ t.getV x = s.getV y ∧ t.pc = s.pc + 2 ∧ Keeps [x] [.pc] s t) ∧
    (∃ t, exec (.orReg x y) s = .next t ∧ t.pc = s.pc + 2 ∧ Keeps [x] [.pc] s t ∧
      ∀ j < 8, (t.getV x).getLsbD j = ((s.getV x).getLsbD j || (s.getV y).getLsbD j)) ∧
    (∃ t, exec (.andReg x y) s = .next t ∧ t.pc = s.pc + 2 ∧ Keeps [x] [.pc] s t ∧
      ∀ j < 8, (t.getV x).getLsbD j = ((s.getV x).getLsbD j && (s.getV y).getLsbD j)) ∧
    (∃ t, exec (.xorReg x y) s = .next t ∧ t.pc = s.pc + 2 ∧ Keeps [x] [.pc] s t ∧
      ∀ j < 8, (t.getV x).getLsbD j = ((s.getV x).getLsbD j ^^ (s.getV y).getLsbD j))

/-- R138: the sum modulo 256 and the carry. Which of the two VF keeps when X = 0xF is the spec's own decision D4. -/
def Obligations.AddRegistersCarriesIntoVf : Prop :=
  ∀ (x y : Reg) (s : State), decodeWord (wordXYN 0x8 (fieldOf x) (fieldOf y) 0x4) = .ok (.addReg x y) ∧
    ∃ t, exec (.addReg x y) s = .next t ∧ t.pc = s.pc + 2 ∧ Keeps [x, vf] [.pc] s t ∧
      HoldsFlagAndResult s x (if (s.getV x).toNat + (s.getV y).toNat > 255 then 1 else 0)
        (((s.getV x).toNat + (s.getV y).toNat) % 256) t

/-- R139, R141: the two differences modulo 256 and their not-borrow flags. Which of flag and result VF keeps when
X = 0xF is the spec's own decision D4. -/
def Obligations.SubtractionsSetNotBorrow : Prop :=
  ∀ (x y : Reg) (s : State),
    decodeWord (wordXYN 0x8 (fieldOf x) (fieldOf y) 0x5) = .ok (.subReg x y) ∧
    decodeWord (wordXYN 0x8 (fieldOf x) (fieldOf y) 0x7) = .ok (.subnReg x y) ∧
    (∃ t, exec (.subReg x y) s = .next t ∧ t.pc = s.pc + 2 ∧ Keeps [x, vf] [.pc] s t ∧
      HoldsFlagAndResult s x (if (s.getV x).toNat ≥ (s.getV y).toNat then 1 else 0)
        (((s.getV x).toNat + 256 - (s.getV y).toNat) % 256) t) ∧
    (∃ t, exec (.subnReg x y) s = .next t ∧ t.pc = s.pc + 2 ∧ Keeps [x, vf] [.pc] s t ∧
      HoldsFlagAndResult s x (if (s.getV y).toNat ≥ (s.getV x).toNat then 1 else 0)
        (((s.getV y).toNat + 256 - (s.getV x).toNat) % 256) t)

/-- R140, R142, R85: the shifts of VX or, with `SHIFT_SOURCE = Y` (the spec's own decision D6), of VY; VF takes the bit
shifted out. Which of flag and result VF keeps when X = 0xF is the spec's own decision D4. -/
def Obligations.ShiftsMoveOneBitIntoVf : Prop :=
  ∀ (x y : Reg) (s : State),
    let v := (if s.config.shiftSource = .X then s.getV x else s.getV y).toNat
    decodeWord (wordXYN 0x8 (fieldOf x) (fieldOf y) 0x6) = .ok (.shr x y) ∧
    decodeWord (wordXYN 0x8 (fieldOf x) (fieldOf y) 0xE) = .ok (.shl x y) ∧
    (∃ t, exec (.shr x y) s = .next t ∧ t.pc = s.pc + 2 ∧ Keeps [x, vf] [.pc] s t ∧
      HoldsFlagAndResult s x (v % 2) (v / 2) t) ∧
    (∃ t, exec (.shl x y) s = .next t ∧ t.pc = s.pc + 2 ∧ Keeps [x, vf] [.pc] s t ∧
      HoldsFlagAndResult s x (v / 128) (2 * v % 256) t) ∧
    (s.config.shiftSource = .X → ∀ y' : Reg, exec (.shr x y) s = exec (.shr x y') s ∧
      exec (.shl x y) s = exec (.shl x y') s)

/-- R145 (the spec's own decision D24): VX is the step's free byte masked by NN, whatever that byte is, so no bit outside
NN is ever set; the draw is counted (the model's field, log 2). -/
def Obligations.RndMasksTheFreeByte : Prop :=
  ∀ (x : Reg) (nn : Byte) (s : State), decodeWord (wordXNN 0xC (fieldOf x) nn) = .ok (.rnd x nn) ∧
    ∃ t, exec (.rnd x nn) s = .next t ∧ t.getV x = (Config.freeByte s.draws &&& nn) ∧
      (t.getV x &&& ~~~nn) = 0 ∧ t.pc = s.pc + 2 ∧ t.draws = s.draws + 1 ∧ Keeps [x] [.pc, .draws] s t

/-! ## The index register and memory -/

/-- R160, R161, R162: the three writes of I; the glyph's address for every `FONT_BASE` up to 0xFB4, the bound of R25. -/
def Obligations.IndexIsSetSummedAndPointed : Prop :=
  ∀ (x : Reg) (nnn : Addr12) (s : State),
    decodeWord (wordNNN 0xA nnn) = .ok (.ldI nnn) ∧
    decodeWord (wordXNN 0xF (fieldOf x) 0x1E) = .ok (.addI x) ∧
    decodeWord (wordXNN 0xF (fieldOf x) 0x29) = .ok (.ldF x) ∧
    (∃ t, exec (.ldI nnn) s = .next t ∧ t.I.toNat = nnn.toNat ∧ t.pc = s.pc + 2 ∧ Keeps [] [.I, .pc] s t) ∧
    (∃ t, exec (.addI x) s = .next t ∧ t.I.toNat = (s.I.toNat + (s.getV x).toNat) % 4096 ∧
      (t.getV vf).toNat = (if s.I.toNat + (s.getV x).toNat > 0xFFF then 1 else 0) ∧ t.pc = s.pc + 2 ∧
      Keeps [vf] [.I, .pc] s t) ∧
    (s.config.fontBase ≤ 0xFB4 → ∃ t, exec (.ldF x) s = .next t ∧
      t.I.toNat = s.config.fontBase + 5 * ((s.getV x).toNat % 16) ∧ t.pc = s.pc + 2 ∧ Keeps [] [.I, .pc] s t)

/-- R163: three decimal digits at I, I+1, I+2, or MemoryOutOfBounds and no byte written. -/
def Obligations.BcdStoresThreeDigits : Prop :=
  ∀ (x : Reg) (s : State), decodeWord (wordXNN 0xF (fieldOf x) 0x33) = .ok (.ldB x) ∧
    (s.I.toNat + 2 < 4096 → Memory.wf s.config s.MEM → ∃ t, exec (.ldB x) s = .next t ∧
      (t.readByte s.I.toNat).toNat = (s.getV x).toNat / 100 ∧
      (t.readByte (s.I.toNat + 1)).toNat = (s.getV x).toNat / 10 % 10 ∧
      (t.readByte (s.I.toNat + 2)).toNat = (s.getV x).toNat % 10 ∧
      (∀ a, a < s.I.toNat ∨ s.I.toNat + 2 < a → t.readByte a = s.readByte a) ∧
      t.pc = s.pc + 2 ∧ Keeps [] [.MEM, .pc] s t) ∧
    (4096 ≤ s.I.toNat + 2 → ∃ t, exec (.ldB x) s = .next t ∧
      RaisesIn s .memoryOutOfBounds (some (wordXNN 0xF (fieldOf x) 0x33)) (some (max s.I.toNat 4096)) t)

/-- R164: V0..VX to memory from I on, I advanced only with `LOADSTORE_INDEX = advance` (the spec's own decision D11), or
MemoryOutOfBounds and no byte written. -/
def Obligations.StoreRegistersToMemory : Prop :=
  ∀ (x : Reg) (s : State), decodeWord (wordXNN 0xF (fieldOf x) 0x55) = .ok (.storeRegs x) ∧
    (s.I.toNat + x.val < 4096 → Memory.wf s.config s.MEM → ∃ t, exec (.storeRegs x) s = .next t ∧
      (∀ k : Reg, k ≤ x → t.readByte (s.I.toNat + k.val) = s.getV k) ∧
      (∀ a, a < s.I.toNat ∨ s.I.toNat + x.val < a → t.readByte a = s.readByte a) ∧
      t.I.toNat = (if s.config.loadStoreIndex = .advance then (s.I.toNat + x.val + 1) % 4096 else s.I.toNat) ∧
      t.pc = s.pc + 2 ∧ Keeps [] [.MEM, .I, .pc] s t) ∧
    (4096 ≤ s.I.toNat + x.val → ∃ t, exec (.storeRegs x) s = .next t ∧
      RaisesIn s .memoryOutOfBounds (some (wordXNN 0xF (fieldOf x) 0x55)) (some (max s.I.toNat 4096)) t)

/-- R165: V0..VX from memory from I on, I advanced only with `LOADSTORE_INDEX = advance` (the spec's own decision D11),
or MemoryOutOfBounds and no register written. -/
def Obligations.LoadRegistersFromMemory : Prop :=
  ∀ (x : Reg) (s : State), decodeWord (wordXNN 0xF (fieldOf x) 0x65) = .ok (.loadRegs x) ∧
    (s.I.toNat + x.val < 4096 → ∃ t, exec (.loadRegs x) s = .next t ∧
      (∀ k : Reg, k ≤ x → t.getV k = s.readByte (s.I.toNat + k.val)) ∧
      t.I.toNat = (if s.config.loadStoreIndex = .advance then (s.I.toNat + x.val + 1) % 4096 else s.I.toNat) ∧
      t.pc = s.pc + 2 ∧ Keeps (regsThrough x) [.I, .pc] s t) ∧
    (4096 ≤ s.I.toNat + x.val → ∃ t, exec (.loadRegs x) s = .next t ∧
      RaisesIn s .memoryOutOfBounds (some (wordXNN 0xF (fieldOf x) 0x65)) (some (max s.I.toNat 4096)) t)

/-- Registers stored with FX55 come back with FX65 at the same I, whatever the registers held in between (R164, R165). -/
def Obligations.StoreThenLoadRestoresRegisters : Prop :=
  ∀ (x : Reg) (s : State) (v : Vector Byte 16), s.I.toNat + x.val < 4096 → Memory.wf s.config s.MEM →
    ∃ t u, exec (.storeRegs x) s = .next t ∧ exec (.loadRegs x) { t with x := v, I := s.I } = .next u ∧
      (∀ k : Reg, k ≤ x → u.getV k = s.getV k) ∧ ∀ k : Reg, x < k → u.getV k = v[k.val]

/-- R66, R246 (the spec's own decision D23): code stored with FX55 at the address after it is the word the very next
fetch reads. -/
def Obligations.StoredCodeIsFetchedNext : Prop :=
  ∀ (x : Reg) (s : State), 1 ≤ x.val → s.I = s.pc + 2 → s.I.toNat + x.val < 4096 → Memory.wf s.config s.MEM →
    ∃ t, exec (.storeRegs x) s = .next t ∧ t.fetch = .ok (wordOfBytes (s.getV 0) (s.getV 1))

/-! ## The display -/

/-- R180: every pixel off, VF and everything else unchanged. -/
def Obligations.ClsTurnsEveryPixelOff : Prop :=
  decodeWord 0x00E0 = .ok .cls ∧ ∀ s : State, ∃ t, exec .cls s = .next t ∧
    (∀ r c, t.D.pixel r c = false) ∧ t.pc = s.pc + 2 ∧ Keeps [] [.D, .pc] s t

/-- R181, R182, R183 (the spec's own decisions D7, D8, D10): DXYN turns over exactly the pixels its on bits land on, where
`LandsOn` of Safety.lean writes the placement of `DRAW_EDGE` out, and VF is 1 exactly when one of those was on; a sprite
byte outside memory raises MemoryOutOfBounds with nothing written. -/
def Obligations.DrawTurnsOverCoveredPixels : Prop :=
  ∀ (x y : Reg) (n : Nibble) (s : State),
    decodeWord (wordXYN 0xD (fieldOf x) (fieldOf y) n) = .ok (.drw x y n) ∧
    (n = 0 ∨ s.I.toNat + n.toNat ≤ 4096 → ∃ t, exec (.drw x y n) s = .next t ∧
      (∀ r c, t.D.pixel r c = true ↔ (s.D.pixel r c = true ↔ ¬ s.spriteCovers x y n r c)) ∧
      (t.getV vf = 0 ∨ t.getV vf = 1) ∧
      (t.getV vf = 1 ↔ ∃ r c, s.spriteCovers x y n r c ∧ s.D.pixel r c = true) ∧
      t.pc = s.pc + 2 ∧ Keeps [vf] [.D, .pc] s t) ∧
    (n ≠ 0 → 4096 < s.I.toNat + n.toNat → ∃ t, exec (.drw x y n) s = .next t ∧
      RaisesIn s .memoryOutOfBounds (some (wordXYN 0xD (fieldOf x) (fieldOf y) n)) (some (max s.I.toNat 4096)) t)

/-- Drawing the same sprite twice restores every pixel, and the second draw reports a collision exactly when the sprite
covers a pixel that was off at first (R181; the source's property W6 starts from a clear display; log 12). With X or
Y = 0xF the first draw's flag moves the second; DrawTurnsOverCoveredPixels says what each does. -/
def Obligations.DrawTwiceRestoresTheDisplay : Prop :=
  ∀ (x y : Reg) (n : Nibble) (s : State), x ≠ vf → y ≠ vf → (n = 0 ∨ s.I.toNat + n.toNat ≤ 4096) →
    ∃ t u, exec (.drw x y n) s = .next t ∧ exec (.drw x y n) t = .next u ∧
      (∀ r c, u.D.pixel r c = s.D.pixel r c) ∧
      (u.getV vf = 1 ↔ ∃ r c, s.spriteCovers x y n r c ∧ s.D.pixel r c = false)

/-! ## Keys and timers -/

/-- R190, R191, R192 (the spec's own decision D14 for an index above 0xF): the skips on a key. -/
def Obligations.SkipsOnAKey : Prop :=
  ∀ (x : Reg) (s : State),
    decodeWord (wordXNN 0xE (fieldOf x) 0x9E) = .ok (.skp x) ∧
    decodeWord (wordXNN 0xE (fieldOf x) 0xA1) = .ok (.sknp x) ∧
    ((s.getV x).toNat ≤ 0xF →
      (∃ t, exec (.skp x) s = .next t ∧ Keeps [] [.pc] s t ∧
        t.pc = if s.K.getLsbD (s.getV x).toNat = true then s.pc + 4 else s.pc + 2) ∧
      (∃ t, exec (.sknp x) s = .next t ∧ Keeps [] [.pc] s t ∧
        t.pc = if s.K.getLsbD (s.getV x).toNat = false then s.pc + 4 else s.pc + 2)) ∧
    (0xF < (s.getV x).toNat →
      (∃ t, exec (.skp x) s = .next t ∧
        RaisesIn s .memoryOutOfBounds (some (wordXNN 0xE (fieldOf x) 0x9E)) (some (s.getV x).toNat) t) ∧
      (∃ t, exec (.sknp x) s = .next t ∧
        RaisesIn s .memoryOutOfBounds (some (wordXNN 0xE (fieldOf x) 0xA1)) (some (s.getV x).toNat) t))

/-- R193, R198, R199: the timer moves; the next tick counts down from the value set (R222); the sound output follows ST
(R224, the spec's own decision D25). -/
def Obligations.TimersAreReadAndSet : Prop :=
  ∀ (x : Reg) (s : State),
    decodeWord (wordXNN 0xF (fieldOf x) 0x07) = .ok (.ldVxDt x) ∧
    decodeWord (wordXNN 0xF (fieldOf x) 0x15) = .ok (.ldDtVx x) ∧
    decodeWord (wordXNN 0xF (fieldOf x) 0x18) = .ok (.ldStVx x) ∧
    (∃ t, exec (.ldVxDt x) s = .next t ∧ t.getV x = s.DT ∧ t.pc = s.pc + 2 ∧ Keeps [x] [.pc] s t) ∧
    (∃ t, exec (.ldDtVx x) s = .next t ∧ t.DT = s.getV x ∧ t.pc = s.pc + 2 ∧ Keeps [] [.DT, .pc] s t ∧
      (s.FAULT = none → t.tick.DT.toNat = (s.getV x).toNat - 1)) ∧
    (∃ t, exec (.ldStVx x) s = .next t ∧ t.ST = s.getV x ∧ t.pc = s.pc + 2 ∧ Keeps [] [.ST, .pc] s t ∧
      (t.readSound = true ↔ s.getV x ≠ 0))

/-- R194 (the spec's own decision D12): FX0A remembers its register and the keys pressed now, and holds pc. -/
def Obligations.KeyWaitBegins : Prop :=
  ∀ (x : Reg) (s : State), decodeWord (wordXNN 0xF (fieldOf x) 0x0A) = .ok (.ldVxK x) ∧
    ∃ t, exec (.ldVxK x) s = .next t ∧ t.KW = .waiting x s.K ∧ Keeps [] [.KW] s t

/-- R195, R196, R197 (the spec's own decisions D12, D13): a step of a pending key-wait completes it with one of the newly
pressed keys, whichever it is, and holds pc when there is none; it fetches nothing. The step is taken with an empty
schedule or from one that starts with a step (log 5). -/
def Obligations.KeyWaitPolls : Prop :=
  ∀ (s u : State) (dst : Reg) (prev : Word), s.FAULT = none → s.stepsFrom u → s.KW = .waiting dst prev →
    ((∀ k : Reg, s.K.getLsbD k.val = true → prev.getLsbD k.val = true) →
      ∃ t, step s = .next t ∧ t.KW = .waiting dst s.K ∧ Keeps [] [.KW] u t) ∧
    ((∃ k : Reg, s.K.getLsbD k.val = true ∧ prev.getLsbD k.val = false) →
      ∃ (t : State) (k : Reg), step s = .next t ∧ s.K.getLsbD k.val = true ∧ prev.getLsbD k.val = false ∧
        (t.getV dst).toNat = k.val ∧ t.KW = .none ∧ t.pc = s.pc + 2 ∧ Keeps [dst] [.KW, .pc, .draws] u t)

/-- R222: a tick takes 1 from each timer that is not 0, whatever the key-wait, and writes nothing else; after a fault it
does nothing (the spec's own decision D33). -/
def Obligations.TickCountsBothTimersDown : Prop :=
  ∀ s : State,
    (s.FAULT = none → s.tick = { s with DT := s.tick.DT, ST := s.tick.ST } ∧
      s.tick.DT.toNat = (if s.DT.toNat > 0 then s.DT.toNat - 1 else s.DT.toNat) ∧
      s.tick.ST.toNat = (if s.ST.toNat > 0 then s.ST.toNat - 1 else s.ST.toNat)) ∧
    (s.FAULT ≠ none → s.tick = s)

/-- R223: `n` ticks take a timer from v to max(v - n, 0). -/
def Obligations.ManyTicksCountDownToZero : Prop :=
  ∀ (s : State) (n : Nat), s.FAULT = none →
    (s.ticks n).DT.toNat = s.DT.toNat - n ∧ (s.ticks n).ST.toNat = s.ST.toNat - n ∧
    s.ticks n = { s with DT := (s.ticks n).DT, ST := (s.ticks n).ST }

/-! ## Rules over all instructions -/

/-- R22: an instruction outside the seven that write VF as a side effect leaves VF alone unless it names VF as its
destination, and the seven leave 0 or 1 there unless they name VF. -/
def Obligations.OnlyFlagInstructionsWriteVf : Prop :=
  (∀ (i : Instr) (s t : State), exec i s = .next t → writesVfAsFlag i = false → vf ∉ namedDestinations i →
    t.getV vf = s.getV vf) ∧
  (∀ (i : Instr) (s t : State), exec i s = .next t → s.FAULT = none → t.FAULT = none → writesVfAsFlag i = true →
    vf ∉ namedDestinations i → t.getV vf = 0 ∨ t.getV vf = 1)

/-- R23: no instruction writes a general register outside the last column of the table of R23. -/
def Obligations.RegistersAreWrittenAsTabled : Prop :=
  ∀ (i : Instr) (s t : State) (r : Reg), exec i s = .next t → r ∉ writes i → t.getV r = s.getV r

/-- R57: only FX33 and FX55 write memory, and only the bytes I .. I+2 and I .. I+X. -/
def Obligations.OnlyStoresWriteMemory : Prop :=
  ∀ (i : Instr) (s t : State) (a : Nat), Memory.wf s.config s.MEM → exec i s = .next t →
    t.readByte a ≠ s.readByte a →
    (∃ x, i = .ldB x ∧ s.I.toNat ≤ a ∧ a ≤ s.I.toNat + 2) ∨
    (∃ x : Reg, i = .storeRegs x ∧ s.I.toNat ≤ a ∧ a ≤ s.I.toNat + x.val)

/-- R24, R28, R30, R31, R32, R34, R35: each special element of the state is written by the instructions the spec names
and by no other. -/
def Obligations.SpecialStateHasItsNamedWriters : Prop :=
  ∀ (i : Instr) (s t : State), exec i s = .next t →
    (t.D ≠ s.D → i = .cls ∨ ∃ x y n, i = .drw x y n) ∧
    (t.S ≠ s.S ∨ t.SP ≠ s.SP → i = .ret ∨ ∃ nnn, i = .call nnn) ∧
    (t.I ≠ s.I → (∃ nnn, i = .ldI nnn) ∨ (∃ x, i = .addI x ∨ i = .ldF x) ∨
      (s.config.loadStoreIndex = .advance ∧ ∃ x, i = .storeRegs x ∨ i = .loadRegs x)) ∧
    (t.DT ≠ s.DT → ∃ x, i = .ldDtVx x) ∧ (t.ST ≠ s.ST → ∃ x, i = .ldStVx x) ∧
    (t.KW ≠ s.KW → ∃ x, i = .ldVxK x) ∧ t.K = s.K ∧ t.config = s.config ∧ t.schedule = s.schedule

/-- R214: which instruction raises what. -/
def Obligations.ErrorsComeFromTheirInstructions : Prop :=
  ∀ (i : Instr) (s t : State) (r : FaultRecord), s.FAULT = none → exec i s = .next t → t.FAULT = some r →
    (i = .ret ∧ r.kind = .stackUnderflow) ∨ (∃ nnn, i = .call nnn ∧ r.kind = .stackOverflow) ∨
    ((∃ x, i = .ldB x ∨ i = .storeRegs x ∨ i = .loadRegs x ∨ i = .skp x ∨ i = .sknp x) ∧
      r.kind = .memoryOutOfBounds) ∨
    ((∃ x y n, i = .drw x y n) ∧ r.kind = .memoryOutOfBounds)

/-- R102, R103 (the spec's own decision D3: nothing is masked): an error leaves pc; without one FX0A leaves pc, a skip
moves it by 2 or 4, and every instruction that is no jump, call, return, skip or FX0A moves it by 2. -/
def Obligations.PcMovesByTwoUnlessSet : Prop :=
  ∀ (i : Instr) (s t : State), s.FAULT = none → exec i s = .next t →
    (t.FAULT ≠ none → t.pc = s.pc) ∧
    (t.FAULT = none →
      (∀ x, i = .ldVxK x → t.pc = s.pc) ∧
      (isSkip i = true → t.pc = s.pc + 2 ∨ t.pc = s.pc + 4) ∧
      (isJump i = false → isSkip i = false → (∀ x, i ≠ .ldVxK x) → t.pc = s.pc + 2))
end

