-- ==== Sys2Proof/Laws/Decode.lean ====
section
/-!
SUPPORT. The bits and the fields of the three word layouts of R72, and the two bytes of a word.
-/

namespace Sys2Proof

theorem getLsbD_wordXYN (op x y n : Nibble) (j : Nat) :
    (wordXYN op x y n).getLsbD j =
      if j < 4 then n.getLsbD j else if j < 8 then y.getLsbD (j - 4)
      else if j < 12 then x.getLsbD (j - 8) else op.getLsbD (j - 12) := by
  refine (BitVec.getLsbD_append (x := op ++ x ++ y) (y := n) (i := j)).trans ?_
  rw [BitVec.getLsbD_append, BitVec.getLsbD_append]
  by_cases h : j < 4
  · simp [h]
  · simp only [h, if_false, show (j - 4 < 4) = (j < 8) by simp; omega,
      show (j - 4 - 4 < 4) = (j < 12) by simp; omega]
    rw [show j - 4 - 4 = j - 8 by omega, show j - 8 - 4 = j - 12 by omega]

theorem getLsbD_wordXNN (op x : Nibble) (nn : Byte) (j : Nat) :
    (wordXNN op x nn).getLsbD j =
      if j < 8 then nn.getLsbD j else if j < 12 then x.getLsbD (j - 8) else op.getLsbD (j - 12) := by
  refine (BitVec.getLsbD_append (x := op ++ x) (y := nn) (i := j)).trans ?_
  rw [BitVec.getLsbD_append]
  by_cases h : j < 8
  · simp [h]
  · simp only [h, if_false, show (j - 8 < 4) = (j < 12) by simp; omega, Nat.sub_sub]

theorem getLsbD_wordNNN (op : Nibble) (nnn : Addr12) (j : Nat) :
    (wordNNN op nnn).getLsbD j = if j < 12 then nnn.getLsbD j else op.getLsbD (j - 12) :=
  BitVec.getLsbD_append (x := op) (y := nnn) (i := j)

@[simp] theorem regOf_fieldOf (r : Reg) : regOf (fieldOf r) = r := rfl
@[simp] theorem fieldOf_regOf (v : Nibble) : fieldOf (regOf v) = v := rfl

/-! ## The fields of each layout -/

@[simp] theorem fieldsOf_wordXYN_op (op x y n : Nibble) : (fieldsOf (wordXYN op x y n)).op = op := by
  apply BitVec.eq_of_getLsbD_eq
  intro j hj
  simp only [fieldsOf, BitVec.getLsbD_extractLsb', getLsbD_wordXYN]
  rw [if_neg (by omega), if_neg (by omega), if_neg (by omega)]
  simp [hj]
@[simp] theorem fieldsOf_wordXYN_x (op x y n : Nibble) : (fieldsOf (wordXYN op x y n)).x = x := by
  apply BitVec.eq_of_getLsbD_eq
  intro j hj
  simp only [fieldsOf, BitVec.getLsbD_extractLsb', getLsbD_wordXYN]
  rw [if_neg (by omega), if_neg (by omega), if_pos (by omega)]
  simp [hj]
@[simp] theorem fieldsOf_wordXYN_y (op x y n : Nibble) : (fieldsOf (wordXYN op x y n)).y = y := by
  apply BitVec.eq_of_getLsbD_eq
  intro j hj
  simp only [fieldsOf, BitVec.getLsbD_extractLsb', getLsbD_wordXYN]
  rw [if_neg (by omega), if_pos (by omega)]
  simp [hj]
@[simp] theorem fieldsOf_wordXYN_n (op x y n : Nibble) : (fieldsOf (wordXYN op x y n)).n = n := by
  apply BitVec.eq_of_getLsbD_eq
  intro j hj
  simp only [fieldsOf, BitVec.getLsbD_extractLsb', getLsbD_wordXYN]
  rw [if_pos (by omega)]
  simp [hj]
@[simp] theorem fieldsOf_wordXNN_op (op x : Nibble) (nn : Byte) : (fieldsOf (wordXNN op x nn)).op = op := by
  apply BitVec.eq_of_getLsbD_eq
  intro j hj
  simp only [fieldsOf, BitVec.getLsbD_extractLsb', getLsbD_wordXNN]
  rw [if_neg (by omega), if_neg (by omega)]
  simp [hj]
@[simp] theorem fieldsOf_wordXNN_x (op x : Nibble) (nn : Byte) : (fieldsOf (wordXNN op x nn)).x = x := by
  apply BitVec.eq_of_getLsbD_eq
  intro j hj
  simp only [fieldsOf, BitVec.getLsbD_extractLsb', getLsbD_wordXNN]
  rw [if_neg (by omega), if_pos (by omega)]
  simp [hj]
@[simp] theorem fieldsOf_wordXNN_nn (op x : Nibble) (nn : Byte) : (fieldsOf (wordXNN op x nn)).nn = nn := by
  apply BitVec.eq_of_getLsbD_eq
  intro j hj
  simp only [fieldsOf, BitVec.getLsbD_extractLsb', getLsbD_wordXNN]
  rw [if_pos (by omega)]
  simp [hj]
@[simp] theorem fieldsOf_wordNNN_op (op : Nibble) (nnn : Addr12) : (fieldsOf (wordNNN op nnn)).op = op := by
  apply BitVec.eq_of_getLsbD_eq
  intro j hj
  simp only [fieldsOf, BitVec.getLsbD_extractLsb', getLsbD_wordNNN]
  rw [if_neg (by omega)]
  simp [hj]
@[simp] theorem fieldsOf_wordNNN_nnn (op : Nibble) (nnn : Addr12) : (fieldsOf (wordNNN op nnn)).nnn = nnn := by
  apply BitVec.eq_of_getLsbD_eq
  intro j hj
  simp only [fieldsOf, BitVec.getLsbD_extractLsb', getLsbD_wordNNN]
  rw [if_pos (by omega)]
  simp [hj]

/-! ## A word from its own fields -/

theorem wordXYN_fieldsOf (w : Word) :
    wordXYN (fieldsOf w).op (fieldsOf w).x (fieldsOf w).y (fieldsOf w).n = w := by
  apply BitVec.eq_of_getLsbD_eq
  intro j hj
  rw [getLsbD_wordXYN]
  simp only [fieldsOf, BitVec.getLsbD_extractLsb']
  split
  · simp [*]
  · split
    · rw [show 4 + (j - 4) = j by omega]; simp; omega
    · split
      · rw [show 8 + (j - 8) = j by omega]; simp; omega
      · rw [show 12 + (j - 12) = j by omega]; simp; omega

theorem wordXNN_fieldsOf (w : Word) : wordXNN (fieldsOf w).op (fieldsOf w).x (fieldsOf w).nn = w := by
  apply BitVec.eq_of_getLsbD_eq
  intro j hj
  rw [getLsbD_wordXNN]
  simp only [fieldsOf, BitVec.getLsbD_extractLsb']
  split
  · simp [*]
  · split
    · rw [show 8 + (j - 8) = j by omega]; simp; omega
    · rw [show 12 + (j - 12) = j by omega]; simp; omega

theorem wordNNN_fieldsOf (w : Word) : wordNNN (fieldsOf w).op (fieldsOf w).nnn = w := by
  apply BitVec.eq_of_getLsbD_eq
  intro j hj
  rw [getLsbD_wordNNN]
  simp only [fieldsOf, BitVec.getLsbD_extractLsb']
  split
  · simp [*]
  · rw [show 12 + (j - 12) = j by omega]; simp; omega

/-- The class that the last arm of `decodeFields` is left with is 0xF. -/
theorem eq_classF (op : Nibble) (h : op ≠ 0x0 ∧ op ≠ 0x1 ∧ op ≠ 0x2 ∧ op ≠ 0x3 ∧ op ≠ 0x4 ∧ op ≠ 0x5 ∧ op ≠ 0x6 ∧
    op ≠ 0x7 ∧ op ≠ 0x8 ∧ op ≠ 0x9 ∧ op ≠ 0xA ∧ op ≠ 0xB ∧ op ≠ 0xC ∧ op ≠ 0xD ∧ op ≠ 0xE) : op = 0xF := by
  revert op; decide

/-! ## The bytes of a word -/

theorem getLsbD_wordOfBytes (hi lo : Byte) (j : Nat) :
    (wordOfBytes hi lo).getLsbD j = if j < 8 then lo.getLsbD j else hi.getLsbD (j - 8) :=
  BitVec.getLsbD_append (x := hi) (y := lo) (i := j)

@[simp] theorem hiByte_wordOfBytes (hi lo : Byte) : hiByte (wordOfBytes hi lo) = hi := by
  apply BitVec.eq_of_getLsbD_eq
  intro j hj
  simp [hiByte, getLsbD_wordOfBytes, hj]

@[simp] theorem loByte_wordOfBytes (hi lo : Byte) : loByte (wordOfBytes hi lo) = lo := by
  apply BitVec.eq_of_getLsbD_eq
  intro j hj
  simp [loByte, getLsbD_wordOfBytes, hj]

@[simp] theorem wordOfBytes_bytes (w : Word) : wordOfBytes (hiByte w) (loByte w) = w := by
  apply BitVec.eq_of_getLsbD_eq
  intro j hj
  rw [getLsbD_wordOfBytes]
  simp only [hiByte, loByte, BitVec.getLsbD_extractLsb']
  split
  · simp [*]
  · rw [show 8 + (j - 8) = j by omega]; simp; omega

end Sys2Proof
end

