-- ==== Sys2Proof/Laws/State.lean ====
section
/-!
SUPPORT. The field lemmas of State: for each update of Machine/Ops.lean, what it leaves of every field. They are true
by rfl, so that no later proof unfolds a record update.
-/

namespace Sys2Proof.Machine

/-! ## setV -/

@[simp] theorem State.setV_x (s : State) (r : Reg) (b : Byte) : (s.setV r b).x = s.x.set r.val b := rfl
@[simp] theorem State.setV_I (s : State) (r : Reg) (b : Byte) : (s.setV r b).I = s.I := rfl
@[simp] theorem State.setV_pc (s : State) (r : Reg) (b : Byte) : (s.setV r b).pc = s.pc := rfl
@[simp] theorem State.setV_S (s : State) (r : Reg) (b : Byte) : (s.setV r b).S = s.S := rfl
@[simp] theorem State.setV_SP (s : State) (r : Reg) (b : Byte) : (s.setV r b).SP = s.SP := rfl
@[simp] theorem State.setV_DT (s : State) (r : Reg) (b : Byte) : (s.setV r b).DT = s.DT := rfl
@[simp] theorem State.setV_ST (s : State) (r : Reg) (b : Byte) : (s.setV r b).ST = s.ST := rfl
@[simp] theorem State.setV_MEM (s : State) (r : Reg) (b : Byte) : (s.setV r b).MEM = s.MEM := rfl
@[simp] theorem State.setV_D (s : State) (r : Reg) (b : Byte) : (s.setV r b).D = s.D := rfl
@[simp] theorem State.setV_K (s : State) (r : Reg) (b : Byte) : (s.setV r b).K = s.K := rfl
@[simp] theorem State.setV_KW (s : State) (r : Reg) (b : Byte) : (s.setV r b).KW = s.KW := rfl
@[simp] theorem State.setV_FAULT (s : State) (r : Reg) (b : Byte) : (s.setV r b).FAULT = s.FAULT := rfl
@[simp] theorem State.setV_config (s : State) (r : Reg) (b : Byte) : (s.setV r b).config = s.config := rfl
@[simp] theorem State.setV_draws (s : State) (r : Reg) (b : Byte) : (s.setV r b).draws = s.draws := rfl
@[simp] theorem State.setV_schedule (s : State) (r : Reg) (b : Byte) : (s.setV r b).schedule = s.schedule := rfl
@[simp] theorem State.setV_readByte (s : State) (r : Reg) (b : Byte) (c : Nat) : (s.setV r b).readByte c = s.readByte c := rfl

/-! ## setI -/

@[simp] theorem State.setI_x (s : State) (v : Word) : (s.setI v).x = s.x := rfl
@[simp] theorem State.setI_I (s : State) (v : Word) : (s.setI v).I = v := rfl
@[simp] theorem State.setI_pc (s : State) (v : Word) : (s.setI v).pc = s.pc := rfl
@[simp] theorem State.setI_S (s : State) (v : Word) : (s.setI v).S = s.S := rfl
@[simp] theorem State.setI_SP (s : State) (v : Word) : (s.setI v).SP = s.SP := rfl
@[simp] theorem State.setI_DT (s : State) (v : Word) : (s.setI v).DT = s.DT := rfl
@[simp] theorem State.setI_ST (s : State) (v : Word) : (s.setI v).ST = s.ST := rfl
@[simp] theorem State.setI_MEM (s : State) (v : Word) : (s.setI v).MEM = s.MEM := rfl
@[simp] theorem State.setI_D (s : State) (v : Word) : (s.setI v).D = s.D := rfl
@[simp] theorem State.setI_K (s : State) (v : Word) : (s.setI v).K = s.K := rfl
@[simp] theorem State.setI_KW (s : State) (v : Word) : (s.setI v).KW = s.KW := rfl
@[simp] theorem State.setI_FAULT (s : State) (v : Word) : (s.setI v).FAULT = s.FAULT := rfl
@[simp] theorem State.setI_config (s : State) (v : Word) : (s.setI v).config = s.config := rfl
@[simp] theorem State.setI_draws (s : State) (v : Word) : (s.setI v).draws = s.draws := rfl
@[simp] theorem State.setI_schedule (s : State) (v : Word) : (s.setI v).schedule = s.schedule := rfl
@[simp] theorem State.setI_getV (s : State) (v : Word) (q : Reg) : (s.setI v).getV q = s.getV q := rfl
@[simp] theorem State.setI_readByte (s : State) (v : Word) (c : Nat) : (s.setI v).readByte c = s.readByte c := rfl

/-! ## setPc -/

@[simp] theorem State.setPc_x (s : State) (v : Word) : (s.setPc v).x = s.x := rfl
@[simp] theorem State.setPc_I (s : State) (v : Word) : (s.setPc v).I = s.I := rfl
@[simp] theorem State.setPc_pc (s : State) (v : Word) : (s.setPc v).pc = v := rfl
@[simp] theorem State.setPc_S (s : State) (v : Word) : (s.setPc v).S = s.S := rfl
@[simp] theorem State.setPc_SP (s : State) (v : Word) : (s.setPc v).SP = s.SP := rfl
@[simp] theorem State.setPc_DT (s : State) (v : Word) : (s.setPc v).DT = s.DT := rfl
@[simp] theorem State.setPc_ST (s : State) (v : Word) : (s.setPc v).ST = s.ST := rfl
@[simp] theorem State.setPc_MEM (s : State) (v : Word) : (s.setPc v).MEM = s.MEM := rfl
@[simp] theorem State.setPc_D (s : State) (v : Word) : (s.setPc v).D = s.D := rfl
@[simp] theorem State.setPc_K (s : State) (v : Word) : (s.setPc v).K = s.K := rfl
@[simp] theorem State.setPc_KW (s : State) (v : Word) : (s.setPc v).KW = s.KW := rfl
@[simp] theorem State.setPc_FAULT (s : State) (v : Word) : (s.setPc v).FAULT = s.FAULT := rfl
@[simp] theorem State.setPc_config (s : State) (v : Word) : (s.setPc v).config = s.config := rfl
@[simp] theorem State.setPc_draws (s : State) (v : Word) : (s.setPc v).draws = s.draws := rfl
@[simp] theorem State.setPc_schedule (s : State) (v : Word) : (s.setPc v).schedule = s.schedule := rfl
@[simp] theorem State.setPc_getV (s : State) (v : Word) (q : Reg) : (s.setPc v).getV q = s.getV q := rfl
@[simp] theorem State.setPc_readByte (s : State) (v : Word) (c : Nat) : (s.setPc v).readByte c = s.readByte c := rfl

/-! ## advance -/

@[simp] theorem State.advance_x (s : State) : (s.advance).x = s.x := rfl
@[simp] theorem State.advance_I (s : State) : (s.advance).I = s.I := rfl
@[simp] theorem State.advance_pc (s : State) : (s.advance).pc = s.pc + 2 := rfl
@[simp] theorem State.advance_S (s : State) : (s.advance).S = s.S := rfl
@[simp] theorem State.advance_SP (s : State) : (s.advance).SP = s.SP := rfl
@[simp] theorem State.advance_DT (s : State) : (s.advance).DT = s.DT := rfl
@[simp] theorem State.advance_ST (s : State) : (s.advance).ST = s.ST := rfl
@[simp] theorem State.advance_MEM (s : State) : (s.advance).MEM = s.MEM := rfl
@[simp] theorem State.advance_D (s : State) : (s.advance).D = s.D := rfl
@[simp] theorem State.advance_K (s : State) : (s.advance).K = s.K := rfl
@[simp] theorem State.advance_KW (s : State) : (s.advance).KW = s.KW := rfl
@[simp] theorem State.advance_FAULT (s : State) : (s.advance).FAULT = s.FAULT := rfl
@[simp] theorem State.advance_config (s : State) : (s.advance).config = s.config := rfl
@[simp] theorem State.advance_draws (s : State) : (s.advance).draws = s.draws := rfl
@[simp] theorem State.advance_schedule (s : State) : (s.advance).schedule = s.schedule := rfl
@[simp] theorem State.advance_getV (s : State) (q : Reg) : (s.advance).getV q = s.getV q := rfl
@[simp] theorem State.advance_readByte (s : State) (c : Nat) : (s.advance).readByte c = s.readByte c := rfl

/-! ## skipIf -/

@[simp] theorem State.skipIf_x (s : State) (b : Bool) : (s.skipIf b).x = s.x := rfl
@[simp] theorem State.skipIf_I (s : State) (b : Bool) : (s.skipIf b).I = s.I := rfl
@[simp] theorem State.skipIf_pc (s : State) (b : Bool) : (s.skipIf b).pc = s.pc + if b then 4 else 2 := rfl
@[simp] theorem State.skipIf_S (s : State) (b : Bool) : (s.skipIf b).S = s.S := rfl
@[simp] theorem State.skipIf_SP (s : State) (b : Bool) : (s.skipIf b).SP = s.SP := rfl
@[simp] theorem State.skipIf_DT (s : State) (b : Bool) : (s.skipIf b).DT = s.DT := rfl
@[simp] theorem State.skipIf_ST (s : State) (b : Bool) : (s.skipIf b).ST = s.ST := rfl
@[simp] theorem State.skipIf_MEM (s : State) (b : Bool) : (s.skipIf b).MEM = s.MEM := rfl
@[simp] theorem State.skipIf_D (s : State) (b : Bool) : (s.skipIf b).D = s.D := rfl
@[simp] theorem State.skipIf_K (s : State) (b : Bool) : (s.skipIf b).K = s.K := rfl
@[simp] theorem State.skipIf_KW (s : State) (b : Bool) : (s.skipIf b).KW = s.KW := rfl
@[simp] theorem State.skipIf_FAULT (s : State) (b : Bool) : (s.skipIf b).FAULT = s.FAULT := rfl
@[simp] theorem State.skipIf_config (s : State) (b : Bool) : (s.skipIf b).config = s.config := rfl
@[simp] theorem State.skipIf_draws (s : State) (b : Bool) : (s.skipIf b).draws = s.draws := rfl
@[simp] theorem State.skipIf_schedule (s : State) (b : Bool) : (s.skipIf b).schedule = s.schedule := rfl
@[simp] theorem State.skipIf_getV (s : State) (b : Bool) (q : Reg) : (s.skipIf b).getV q = s.getV q := rfl
@[simp] theorem State.skipIf_readByte (s : State) (b : Bool) (c : Nat) : (s.skipIf b).readByte c = s.readByte c := rfl

/-! ## setDT -/

@[simp] theorem State.setDT_x (s : State) (b : Byte) : (s.setDT b).x = s.x := rfl
@[simp] theorem State.setDT_I (s : State) (b : Byte) : (s.setDT b).I = s.I := rfl
@[simp] theorem State.setDT_pc (s : State) (b : Byte) : (s.setDT b).pc = s.pc := rfl
@[simp] theorem State.setDT_S (s : State) (b : Byte) : (s.setDT b).S = s.S := rfl
@[simp] theorem State.setDT_SP (s : State) (b : Byte) : (s.setDT b).SP = s.SP := rfl
@[simp] theorem State.setDT_DT (s : State) (b : Byte) : (s.setDT b).DT = b := rfl
@[simp] theorem State.setDT_ST (s : State) (b : Byte) : (s.setDT b).ST = s.ST := rfl
@[simp] theorem State.setDT_MEM (s : State) (b : Byte) : (s.setDT b).MEM = s.MEM := rfl
@[simp] theorem State.setDT_D (s : State) (b : Byte) : (s.setDT b).D = s.D := rfl
@[simp] theorem State.setDT_K (s : State) (b : Byte) : (s.setDT b).K = s.K := rfl
@[simp] theorem State.setDT_KW (s : State) (b : Byte) : (s.setDT b).KW = s.KW := rfl
@[simp] theorem State.setDT_FAULT (s : State) (b : Byte) : (s.setDT b).FAULT = s.FAULT := rfl
@[simp] theorem State.setDT_config (s : State) (b : Byte) : (s.setDT b).config = s.config := rfl
@[simp] theorem State.setDT_draws (s : State) (b : Byte) : (s.setDT b).draws = s.draws := rfl
@[simp] theorem State.setDT_schedule (s : State) (b : Byte) : (s.setDT b).schedule = s.schedule := rfl
@[simp] theorem State.setDT_getV (s : State) (b : Byte) (q : Reg) : (s.setDT b).getV q = s.getV q := rfl
@[simp] theorem State.setDT_readByte (s : State) (b : Byte) (c : Nat) : (s.setDT b).readByte c = s.readByte c := rfl

/-! ## setST -/

@[simp] theorem State.setST_x (s : State) (b : Byte) : (s.setST b).x = s.x := rfl
@[simp] theorem State.setST_I (s : State) (b : Byte) : (s.setST b).I = s.I := rfl
@[simp] theorem State.setST_pc (s : State) (b : Byte) : (s.setST b).pc = s.pc := rfl
@[simp] theorem State.setST_S (s : State) (b : Byte) : (s.setST b).S = s.S := rfl
@[simp] theorem State.setST_SP (s : State) (b : Byte) : (s.setST b).SP = s.SP := rfl
@[simp] theorem State.setST_DT (s : State) (b : Byte) : (s.setST b).DT = s.DT := rfl
@[simp] theorem State.setST_ST (s : State) (b : Byte) : (s.setST b).ST = b := rfl
@[simp] theorem State.setST_MEM (s : State) (b : Byte) : (s.setST b).MEM = s.MEM := rfl
@[simp] theorem State.setST_D (s : State) (b : Byte) : (s.setST b).D = s.D := rfl
@[simp] theorem State.setST_K (s : State) (b : Byte) : (s.setST b).K = s.K := rfl
@[simp] theorem State.setST_KW (s : State) (b : Byte) : (s.setST b).KW = s.KW := rfl
@[simp] theorem State.setST_FAULT (s : State) (b : Byte) : (s.setST b).FAULT = s.FAULT := rfl
@[simp] theorem State.setST_config (s : State) (b : Byte) : (s.setST b).config = s.config := rfl
@[simp] theorem State.setST_draws (s : State) (b : Byte) : (s.setST b).draws = s.draws := rfl
@[simp] theorem State.setST_schedule (s : State) (b : Byte) : (s.setST b).schedule = s.schedule := rfl
@[simp] theorem State.setST_getV (s : State) (b : Byte) (q : Reg) : (s.setST b).getV q = s.getV q := rfl
@[simp] theorem State.setST_readByte (s : State) (b : Byte) (c : Nat) : (s.setST b).readByte c = s.readByte c := rfl

/-! ## setD -/

@[simp] theorem State.setD_x (s : State) (d : Display) : (s.setD d).x = s.x := rfl
@[simp] theorem State.setD_I (s : State) (d : Display) : (s.setD d).I = s.I := rfl
@[simp] theorem State.setD_pc (s : State) (d : Display) : (s.setD d).pc = s.pc := rfl
@[simp] theorem State.setD_S (s : State) (d : Display) : (s.setD d).S = s.S := rfl
@[simp] theorem State.setD_SP (s : State) (d : Display) : (s.setD d).SP = s.SP := rfl
@[simp] theorem State.setD_DT (s : State) (d : Display) : (s.setD d).DT = s.DT := rfl
@[simp] theorem State.setD_ST (s : State) (d : Display) : (s.setD d).ST = s.ST := rfl
@[simp] theorem State.setD_MEM (s : State) (d : Display) : (s.setD d).MEM = s.MEM := rfl
@[simp] theorem State.setD_D (s : State) (d : Display) : (s.setD d).D = d := rfl
@[simp] theorem State.setD_K (s : State) (d : Display) : (s.setD d).K = s.K := rfl
@[simp] theorem State.setD_KW (s : State) (d : Display) : (s.setD d).KW = s.KW := rfl
@[simp] theorem State.setD_FAULT (s : State) (d : Display) : (s.setD d).FAULT = s.FAULT := rfl
@[simp] theorem State.setD_config (s : State) (d : Display) : (s.setD d).config = s.config := rfl
@[simp] theorem State.setD_draws (s : State) (d : Display) : (s.setD d).draws = s.draws := rfl
@[simp] theorem State.setD_schedule (s : State) (d : Display) : (s.setD d).schedule = s.schedule := rfl
@[simp] theorem State.setD_getV (s : State) (d : Display) (q : Reg) : (s.setD d).getV q = s.getV q := rfl
@[simp] theorem State.setD_readByte (s : State) (d : Display) (c : Nat) : (s.setD d).readByte c = s.readByte c := rfl

/-! ## setKW -/

@[simp] theorem State.setKW_x (s : State) (k : KeyWait) : (s.setKW k).x = s.x := rfl
@[simp] theorem State.setKW_I (s : State) (k : KeyWait) : (s.setKW k).I = s.I := rfl
@[simp] theorem State.setKW_pc (s : State) (k : KeyWait) : (s.setKW k).pc = s.pc := rfl
@[simp] theorem State.setKW_S (s : State) (k : KeyWait) : (s.setKW k).S = s.S := rfl
@[simp] theorem State.setKW_SP (s : State) (k : KeyWait) : (s.setKW k).SP = s.SP := rfl
@[simp] theorem State.setKW_DT (s : State) (k : KeyWait) : (s.setKW k).DT = s.DT := rfl
@[simp] theorem State.setKW_ST (s : State) (k : KeyWait) : (s.setKW k).ST = s.ST := rfl
@[simp] theorem State.setKW_MEM (s : State) (k : KeyWait) : (s.setKW k).MEM = s.MEM := rfl
@[simp] theorem State.setKW_D (s : State) (k : KeyWait) : (s.setKW k).D = s.D := rfl
@[simp] theorem State.setKW_K (s : State) (k : KeyWait) : (s.setKW k).K = s.K := rfl
@[simp] theorem State.setKW_KW (s : State) (k : KeyWait) : (s.setKW k).KW = k := rfl
@[simp] theorem State.setKW_FAULT (s : State) (k : KeyWait) : (s.setKW k).FAULT = s.FAULT := rfl
@[simp] theorem State.setKW_config (s : State) (k : KeyWait) : (s.setKW k).config = s.config := rfl
@[simp] theorem State.setKW_draws (s : State) (k : KeyWait) : (s.setKW k).draws = s.draws := rfl
@[simp] theorem State.setKW_schedule (s : State) (k : KeyWait) : (s.setKW k).schedule = s.schedule := rfl
@[simp] theorem State.setKW_getV (s : State) (k : KeyWait) (q : Reg) : (s.setKW k).getV q = s.getV q := rfl
@[simp] theorem State.setKW_readByte (s : State) (k : KeyWait) (c : Nat) : (s.setKW k).readByte c = s.readByte c := rfl

/-! ## setK -/

@[simp] theorem State.setK_x (s : State) (m : Word) : (s.setK m).x = s.x := rfl
@[simp] theorem State.setK_I (s : State) (m : Word) : (s.setK m).I = s.I := rfl
@[simp] theorem State.setK_pc (s : State) (m : Word) : (s.setK m).pc = s.pc := rfl
@[simp] theorem State.setK_S (s : State) (m : Word) : (s.setK m).S = s.S := rfl
@[simp] theorem State.setK_SP (s : State) (m : Word) : (s.setK m).SP = s.SP := rfl
@[simp] theorem State.setK_DT (s : State) (m : Word) : (s.setK m).DT = s.DT := rfl
@[simp] theorem State.setK_ST (s : State) (m : Word) : (s.setK m).ST = s.ST := rfl
@[simp] theorem State.setK_MEM (s : State) (m : Word) : (s.setK m).MEM = s.MEM := rfl
@[simp] theorem State.setK_D (s : State) (m : Word) : (s.setK m).D = s.D := rfl
@[simp] theorem State.setK_K (s : State) (m : Word) : (s.setK m).K = m := rfl
@[simp] theorem State.setK_KW (s : State) (m : Word) : (s.setK m).KW = s.KW := rfl
@[simp] theorem State.setK_FAULT (s : State) (m : Word) : (s.setK m).FAULT = s.FAULT := rfl
@[simp] theorem State.setK_config (s : State) (m : Word) : (s.setK m).config = s.config := rfl
@[simp] theorem State.setK_draws (s : State) (m : Word) : (s.setK m).draws = s.draws := rfl
@[simp] theorem State.setK_schedule (s : State) (m : Word) : (s.setK m).schedule = s.schedule := rfl
@[simp] theorem State.setK_getV (s : State) (m : Word) (q : Reg) : (s.setK m).getV q = s.getV q := rfl
@[simp] theorem State.setK_readByte (s : State) (m : Word) (c : Nat) : (s.setK m).readByte c = s.readByte c := rfl

/-! ## countDraw -/

@[simp] theorem State.countDraw_x (s : State) : (s.countDraw).x = s.x := rfl
@[simp] theorem State.countDraw_I (s : State) : (s.countDraw).I = s.I := rfl
@[simp] theorem State.countDraw_pc (s : State) : (s.countDraw).pc = s.pc := rfl
@[simp] theorem State.countDraw_S (s : State) : (s.countDraw).S = s.S := rfl
@[simp] theorem State.countDraw_SP (s : State) : (s.countDraw).SP = s.SP := rfl
@[simp] theorem State.countDraw_DT (s : State) : (s.countDraw).DT = s.DT := rfl
@[simp] theorem State.countDraw_ST (s : State) : (s.countDraw).ST = s.ST := rfl
@[simp] theorem State.countDraw_MEM (s : State) : (s.countDraw).MEM = s.MEM := rfl
@[simp] theorem State.countDraw_D (s : State) : (s.countDraw).D = s.D := rfl
@[simp] theorem State.countDraw_K (s : State) : (s.countDraw).K = s.K := rfl
@[simp] theorem State.countDraw_KW (s : State) : (s.countDraw).KW = s.KW := rfl
@[simp] theorem State.countDraw_FAULT (s : State) : (s.countDraw).FAULT = s.FAULT := rfl
@[simp] theorem State.countDraw_config (s : State) : (s.countDraw).config = s.config := rfl
@[simp] theorem State.countDraw_draws (s : State) : (s.countDraw).draws = s.draws + 1 := rfl
@[simp] theorem State.countDraw_schedule (s : State) : (s.countDraw).schedule = s.schedule := rfl
@[simp] theorem State.countDraw_getV (s : State) (q : Reg) : (s.countDraw).getV q = s.getV q := rfl
@[simp] theorem State.countDraw_readByte (s : State) (c : Nat) : (s.countDraw).readByte c = s.readByte c := rfl

/-! ## setSchedule -/

@[simp] theorem State.setSchedule_x (s : State) (l : List HostOp) : (s.setSchedule l).x = s.x := rfl
@[simp] theorem State.setSchedule_I (s : State) (l : List HostOp) : (s.setSchedule l).I = s.I := rfl
@[simp] theorem State.setSchedule_pc (s : State) (l : List HostOp) : (s.setSchedule l).pc = s.pc := rfl
@[simp] theorem State.setSchedule_S (s : State) (l : List HostOp) : (s.setSchedule l).S = s.S := rfl
@[simp] theorem State.setSchedule_SP (s : State) (l : List HostOp) : (s.setSchedule l).SP = s.SP := rfl
@[simp] theorem State.setSchedule_DT (s : State) (l : List HostOp) : (s.setSchedule l).DT = s.DT := rfl
@[simp] theorem State.setSchedule_ST (s : State) (l : List HostOp) : (s.setSchedule l).ST = s.ST := rfl
@[simp] theorem State.setSchedule_MEM (s : State) (l : List HostOp) : (s.setSchedule l).MEM = s.MEM := rfl
@[simp] theorem State.setSchedule_D (s : State) (l : List HostOp) : (s.setSchedule l).D = s.D := rfl
@[simp] theorem State.setSchedule_K (s : State) (l : List HostOp) : (s.setSchedule l).K = s.K := rfl
@[simp] theorem State.setSchedule_KW (s : State) (l : List HostOp) : (s.setSchedule l).KW = s.KW := rfl
@[simp] theorem State.setSchedule_FAULT (s : State) (l : List HostOp) : (s.setSchedule l).FAULT = s.FAULT := rfl
@[simp] theorem State.setSchedule_config (s : State) (l : List HostOp) : (s.setSchedule l).config = s.config := rfl
@[simp] theorem State.setSchedule_draws (s : State) (l : List HostOp) : (s.setSchedule l).draws = s.draws := rfl
@[simp] theorem State.setSchedule_schedule (s : State) (l : List HostOp) : (s.setSchedule l).schedule = l := rfl
@[simp] theorem State.setSchedule_getV (s : State) (l : List HostOp) (q : Reg) : (s.setSchedule l).getV q = s.getV q := rfl
@[simp] theorem State.setSchedule_readByte (s : State) (l : List HostOp) (c : Nat) : (s.setSchedule l).readByte c = s.readByte c := rfl

/-! ## raise -/

@[simp] theorem State.raise_x (s : State) (k : Fault) (w : Option Word) (a : Option Nat) : (s.raise k w a).x = s.x := rfl
@[simp] theorem State.raise_I (s : State) (k : Fault) (w : Option Word) (a : Option Nat) : (s.raise k w a).I = s.I := rfl
@[simp] theorem State.raise_pc (s : State) (k : Fault) (w : Option Word) (a : Option Nat) : (s.raise k w a).pc = s.pc := rfl
@[simp] theorem State.raise_S (s : State) (k : Fault) (w : Option Word) (a : Option Nat) : (s.raise k w a).S = s.S := rfl
@[simp] theorem State.raise_SP (s : State) (k : Fault) (w : Option Word) (a : Option Nat) : (s.raise k w a).SP = s.SP := rfl
@[simp] theorem State.raise_DT (s : State) (k : Fault) (w : Option Word) (a : Option Nat) : (s.raise k w a).DT = s.DT := rfl
@[simp] theorem State.raise_ST (s : State) (k : Fault) (w : Option Word) (a : Option Nat) : (s.raise k w a).ST = s.ST := rfl
@[simp] theorem State.raise_MEM (s : State) (k : Fault) (w : Option Word) (a : Option Nat) : (s.raise k w a).MEM = s.MEM := rfl
@[simp] theorem State.raise_D (s : State) (k : Fault) (w : Option Word) (a : Option Nat) : (s.raise k w a).D = s.D := rfl
@[simp] theorem State.raise_K (s : State) (k : Fault) (w : Option Word) (a : Option Nat) : (s.raise k w a).K = s.K := rfl
@[simp] theorem State.raise_KW (s : State) (k : Fault) (w : Option Word) (a : Option Nat) : (s.raise k w a).KW = s.KW := rfl
@[simp] theorem State.raise_FAULT (s : State) (k : Fault) (w : Option Word) (a : Option Nat) : (s.raise k w a).FAULT = some { kind := k, pc := s.pc, word := w, addr := a } := rfl
@[simp] theorem State.raise_config (s : State) (k : Fault) (w : Option Word) (a : Option Nat) : (s.raise k w a).config = s.config := rfl
@[simp] theorem State.raise_draws (s : State) (k : Fault) (w : Option Word) (a : Option Nat) : (s.raise k w a).draws = s.draws := rfl
@[simp] theorem State.raise_schedule (s : State) (k : Fault) (w : Option Word) (a : Option Nat) : (s.raise k w a).schedule = s.schedule := rfl
@[simp] theorem State.raise_getV (s : State) (k : Fault) (w : Option Word) (a : Option Nat) (q : Reg) : (s.raise k w a).getV q = s.getV q := rfl
@[simp] theorem State.raise_readByte (s : State) (k : Fault) (w : Option Word) (a : Option Nat) (c : Nat) : (s.raise k w a).readByte c = s.readByte c := rfl

/-! ## writeByte -/

@[simp] theorem State.writeByte_x (s : State) (a : Nat) (b : Byte) : (s.writeByte a b).x = s.x := rfl
@[simp] theorem State.writeByte_I (s : State) (a : Nat) (b : Byte) : (s.writeByte a b).I = s.I := rfl
@[simp] theorem State.writeByte_pc (s : State) (a : Nat) (b : Byte) : (s.writeByte a b).pc = s.pc := rfl
@[simp] theorem State.writeByte_S (s : State) (a : Nat) (b : Byte) : (s.writeByte a b).S = s.S := rfl
@[simp] theorem State.writeByte_SP (s : State) (a : Nat) (b : Byte) : (s.writeByte a b).SP = s.SP := rfl
@[simp] theorem State.writeByte_DT (s : State) (a : Nat) (b : Byte) : (s.writeByte a b).DT = s.DT := rfl
@[simp] theorem State.writeByte_ST (s : State) (a : Nat) (b : Byte) : (s.writeByte a b).ST = s.ST := rfl
@[simp] theorem State.writeByte_MEM (s : State) (a : Nat) (b : Byte) : (s.writeByte a b).MEM = Memory.write s.config s.MEM a b := rfl
@[simp] theorem State.writeByte_D (s : State) (a : Nat) (b : Byte) : (s.writeByte a b).D = s.D := rfl
@[simp] theorem State.writeByte_K (s : State) (a : Nat) (b : Byte) : (s.writeByte a b).K = s.K := rfl
@[simp] theorem State.writeByte_KW (s : State) (a : Nat) (b : Byte) : (s.writeByte a b).KW = s.KW := rfl
@[simp] theorem State.writeByte_FAULT (s : State) (a : Nat) (b : Byte) : (s.writeByte a b).FAULT = s.FAULT := rfl
@[simp] theorem State.writeByte_config (s : State) (a : Nat) (b : Byte) : (s.writeByte a b).config = s.config := rfl
@[simp] theorem State.writeByte_draws (s : State) (a : Nat) (b : Byte) : (s.writeByte a b).draws = s.draws := rfl
@[simp] theorem State.writeByte_schedule (s : State) (a : Nat) (b : Byte) : (s.writeByte a b).schedule = s.schedule := rfl
@[simp] theorem State.writeByte_getV (s : State) (a : Nat) (b : Byte) (q : Reg) : (s.writeByte a b).getV q = s.getV q := rfl

/-! ## fillFromV0 -/

@[simp] theorem State.fillFromV0_x (s : State) (l : List Byte) : (s.fillFromV0 l).x = fillRegs s.x 0 l := rfl
@[simp] theorem State.fillFromV0_I (s : State) (l : List Byte) : (s.fillFromV0 l).I = s.I := rfl
@[simp] theorem State.fillFromV0_pc (s : State) (l : List Byte) : (s.fillFromV0 l).pc = s.pc := rfl
@[simp] theorem State.fillFromV0_S (s : State) (l : List Byte) : (s.fillFromV0 l).S = s.S := rfl
@[simp] theorem State.fillFromV0_SP (s : State) (l : List Byte) : (s.fillFromV0 l).SP = s.SP := rfl
@[simp] theorem State.fillFromV0_DT (s : State) (l : List Byte) : (s.fillFromV0 l).DT = s.DT := rfl
@[simp] theorem State.fillFromV0_ST (s : State) (l : List Byte) : (s.fillFromV0 l).ST = s.ST := rfl
@[simp] theorem State.fillFromV0_MEM (s : State) (l : List Byte) : (s.fillFromV0 l).MEM = s.MEM := rfl
@[simp] theorem State.fillFromV0_D (s : State) (l : List Byte) : (s.fillFromV0 l).D = s.D := rfl
@[simp] theorem State.fillFromV0_K (s : State) (l : List Byte) : (s.fillFromV0 l).K = s.K := rfl
@[simp] theorem State.fillFromV0_KW (s : State) (l : List Byte) : (s.fillFromV0 l).KW = s.KW := rfl
@[simp] theorem State.fillFromV0_FAULT (s : State) (l : List Byte) : (s.fillFromV0 l).FAULT = s.FAULT := rfl
@[simp] theorem State.fillFromV0_config (s : State) (l : List Byte) : (s.fillFromV0 l).config = s.config := rfl
@[simp] theorem State.fillFromV0_draws (s : State) (l : List Byte) : (s.fillFromV0 l).draws = s.draws := rfl
@[simp] theorem State.fillFromV0_schedule (s : State) (l : List Byte) : (s.fillFromV0 l).schedule = s.schedule := rfl
@[simp] theorem State.fillFromV0_readByte (s : State) (l : List Byte) (c : Nat) : (s.fillFromV0 l).readByte c = s.readByte c := rfl

end Sys2Proof.Machine
end

