-- ==== Sys2Proof/Laws/Memory.lean ====
section
/-!
SUPPORT. The laws of memory: a read after a write, the canonical form is kept by every memory operation, and what a
block of bytes stored in order leaves.
-/

namespace Sys2Proof.Machine

/-- An address below every listed one reads as construction left it. -/
theorem Memory.read_unlisted (c : Config) (m : Memory) (a : Nat) (h : ∀ p ∈ m, p.1 ≠ a) :
    Memory.read c m a = initialByte c a := by
  induction m with
  | nil => rfl
  | cons p m ih =>
    obtain ⟨k, v⟩ := p
    rw [Memory.read, if_neg (h (k, v) (by simp))]
    exact ih fun q hq => h q (List.mem_cons_of_mem _ hq)

theorem Memory.read_consCell (c : Config) (m : Memory) (a : Nat) (b : Byte) (e : Nat)
    (h : ∀ p ∈ m, a < p.1) :
    Memory.read c (Memory.consCell c a b m) e = if e = a then b else Memory.read c m e := by
  unfold Memory.consCell
  by_cases hb : b = initialByte c a
  · rw [if_pos hb]
    by_cases he : e = a
    · subst he
      rw [if_pos rfl, Memory.read_unlisted c m e fun p hp => (Nat.ne_of_gt (h p hp)), hb]
    · rw [if_neg he]
  · rw [if_neg hb, Memory.read]
    simp only [eq_comm]

/-- A read after a write: the written byte at its own address, every other address as before (R52, R59). -/
theorem Memory.read_write (c : Config) (m : Memory) (hm : m.Pairwise (fun p q => p.1 < q.1)) (a : Nat) (b : Byte)
    (e : Nat) : Memory.read c (Memory.write c m a b) e = if e = a then b else Memory.read c m e := by
  induction m with
  | nil => exact Memory.read_consCell c [] a b e (by simp)
  | cons p m ih =>
    obtain ⟨k, v⟩ := p
    obtain ⟨hk, hm'⟩ := List.pairwise_cons.1 hm
    rw [Memory.write]
    split
    · next hlt =>
      exact Memory.read_consCell c _ a b e fun q hq => by
        rcases List.mem_cons.1 hq with rfl | hq
        · exact hlt
        · exact Nat.lt_trans hlt (hk q hq)
    · next hlt =>
      split
      · next heq =>
        subst heq
        rw [Memory.read_consCell c m a b e hk, Memory.read]
        by_cases he : e = a
        · simp [he]
        · simp [he, Ne.symm he]
      · next hne =>
        rw [Memory.read, Memory.read, ih hm']
        by_cases hke : k = e
        · have : e ≠ a := fun h => hne (h ▸ hke.symm)
          simp [hke, this]
        · simp [hke]

theorem Memory.mem_consCell (c : Config) (m : Memory) (a : Nat) (b : Byte) (p : Host.Cell)
    (h : p ∈ Memory.consCell c a b m) : p = (a, b) ∧ b ≠ initialByte c a ∨ p ∈ m := by
  unfold Memory.consCell at h
  split at h
  · exact .inr h
  · next hb =>
    rcases List.mem_cons.1 h with rfl | h
    · exact .inl ⟨rfl, hb⟩
    · exact .inr h

theorem Memory.mem_write (c : Config) (m : Memory) (a : Nat) (b : Byte) (p : Host.Cell)
    (h : p ∈ Memory.write c m a b) : p = (a, b) ∧ b ≠ initialByte c a ∨ p ∈ m := by
  induction m with
  | nil => exact Memory.mem_consCell c [] a b p h
  | cons q m ih =>
    obtain ⟨k, v⟩ := q
    rw [Memory.write] at h
    split at h
    · exact Memory.mem_consCell c _ a b p h
    · split at h
      · rcases Memory.mem_consCell c _ a b p h with h | h
        · exact .inl h
        · exact .inr (List.mem_cons_of_mem _ h)
      · rcases List.mem_cons.1 h with rfl | h
        · exact .inr (by simp)
        · rcases ih h with h | h
          · exact .inl h
          · exact .inr (List.mem_cons_of_mem _ h)

theorem Memory.pairwise_consCell (c : Config) (m : Memory) (hm : m.Pairwise (fun p q => p.1 < q.1)) (a : Nat) (b : Byte)
    (h : ∀ p ∈ m, a < p.1) : (Memory.consCell c a b m).Pairwise (fun p q => p.1 < q.1) := by
  unfold Memory.consCell
  split
  · exact hm
  · exact List.pairwise_cons.2 ⟨h, hm⟩

theorem Memory.pairwise_write (c : Config) (m : Memory) (hm : m.Pairwise (fun p q => p.1 < q.1)) (a : Nat) (b : Byte) :
    (Memory.write c m a b).Pairwise (fun p q => p.1 < q.1) := by
  induction m with
  | nil => exact Memory.pairwise_consCell c [] hm a b (by simp)
  | cons p m ih =>
    obtain ⟨k, v⟩ := p
    obtain ⟨hk, hm'⟩ := List.pairwise_cons.1 hm
    rw [Memory.write]
    split
    · next hlt =>
      refine Memory.pairwise_consCell c _ hm a b fun q hq => ?_
      rcases List.mem_cons.1 hq with rfl | hq
      · exact hlt
      · exact Nat.lt_trans hlt (hk q hq)
    · next hlt =>
      split
      · next heq => subst heq; exact Memory.pairwise_consCell c m hm' a b hk
      · next hne =>
        refine List.pairwise_cons.2 ⟨fun q hq => ?_, ih hm'⟩
        rcases Memory.mem_write c m a b q hq with ⟨rfl, -⟩ | hq
        · show k < a; omega
        · exact hk q hq

/-- A write to an address of memory keeps the canonical form. -/
theorem Memory.wf_write (c : Config) (m : Memory) (hm : Memory.wf c m) (a : Nat) (ha : a < 4096) (b : Byte) :
    Memory.wf c (Memory.write c m a b) := by
  refine ⟨Memory.pairwise_write c m hm.1 a b, fun p hp => ?_⟩
  rcases Memory.mem_write c m a b p hp with ⟨rfl, hb⟩ | hp
  · exact ⟨ha, hb⟩
  · exact hm.2 p hp

/-- The memory a session is constructed with is in canonical form. -/
theorem Memory.wf_construct (c : Config) : Memory.wf (State.construct c).config (State.construct c).MEM :=
  ⟨List.Pairwise.nil, by simp [State.construct]⟩

/-- `MemRead` after `MemWrite` (R52, R59). -/
theorem State.readByte_writeByte (s : State) (hm : Memory.wf s.config s.MEM) (a : Nat) (b : Byte) (e : Nat) :
    (s.writeByte a b).readByte e = if e = a then b else s.readByte e :=
  Memory.read_write s.config s.MEM hm.1 a b e

/-! ## A block of bytes -/

/-- Storing bytes writes memory and nothing else. -/
theorem State.writeBytes_eq (s : State) (a : Nat) (bs : List Byte) :
    s.writeBytes a bs = { s with MEM := (s.writeBytes a bs).MEM } := by
  induction bs generalizing s a with
  | nil => rfl
  | cons b bs ih => exact ih (s.writeByte a b) (a + 1)

@[simp] theorem State.writeBytes_x (s : State) (a : Nat) (bs : List Byte) : (s.writeBytes a bs).x = s.x := by
  rw [writeBytes_eq]
@[simp] theorem State.writeBytes_I (s : State) (a : Nat) (bs : List Byte) : (s.writeBytes a bs).I = s.I := by
  rw [writeBytes_eq]
@[simp] theorem State.writeBytes_pc (s : State) (a : Nat) (bs : List Byte) : (s.writeBytes a bs).pc = s.pc := by
  rw [writeBytes_eq]
@[simp] theorem State.writeBytes_S (s : State) (a : Nat) (bs : List Byte) : (s.writeBytes a bs).S = s.S := by
  rw [writeBytes_eq]
@[simp] theorem State.writeBytes_SP (s : State) (a : Nat) (bs : List Byte) : (s.writeBytes a bs).SP = s.SP := by
  rw [writeBytes_eq]
@[simp] theorem State.writeBytes_DT (s : State) (a : Nat) (bs : List Byte) : (s.writeBytes a bs).DT = s.DT := by
  rw [writeBytes_eq]
@[simp] theorem State.writeBytes_ST (s : State) (a : Nat) (bs : List Byte) : (s.writeBytes a bs).ST = s.ST := by
  rw [writeBytes_eq]
@[simp] theorem State.writeBytes_D (s : State) (a : Nat) (bs : List Byte) : (s.writeBytes a bs).D = s.D := by
  rw [writeBytes_eq]
@[simp] theorem State.writeBytes_K (s : State) (a : Nat) (bs : List Byte) : (s.writeBytes a bs).K = s.K := by
  rw [writeBytes_eq]
@[simp] theorem State.writeBytes_KW (s : State) (a : Nat) (bs : List Byte) : (s.writeBytes a bs).KW = s.KW := by
  rw [writeBytes_eq]
@[simp] theorem State.writeBytes_FAULT (s : State) (a : Nat) (bs : List Byte) :
    (s.writeBytes a bs).FAULT = s.FAULT := by
  rw [writeBytes_eq]
@[simp] theorem State.writeBytes_config (s : State) (a : Nat) (bs : List Byte) :
    (s.writeBytes a bs).config = s.config := by
  rw [writeBytes_eq]
@[simp] theorem State.writeBytes_draws (s : State) (a : Nat) (bs : List Byte) :
    (s.writeBytes a bs).draws = s.draws := by
  rw [writeBytes_eq]
@[simp] theorem State.writeBytes_schedule (s : State) (a : Nat) (bs : List Byte) :
    (s.writeBytes a bs).schedule = s.schedule := by
  rw [writeBytes_eq]
@[simp] theorem State.writeBytes_getV (s : State) (a : Nat) (bs : List Byte) (q : Reg) :
    (s.writeBytes a bs).getV q = s.getV q := by
  rw [writeBytes_eq]; rfl

/-- Storing a block inside memory keeps the canonical form. -/
theorem State.wf_writeBytes (s : State) (hm : Memory.wf s.config s.MEM) (a : Nat) (bs : List Byte)
    (h : a + bs.length ≤ 4096) : Memory.wf s.config (s.writeBytes a bs).MEM := by
  induction bs generalizing s a with
  | nil => exact hm
  | cons b bs ih =>
    simp only [List.length_cons] at h
    exact ih (s.writeByte a b) (Memory.wf_write _ _ hm a (by omega) b) (a + 1) (by omega)

/-- What a stored block leaves at every address: its own bytes inside it, the old byte everywhere else. -/
theorem State.readByte_writeBytes (s : State) (hm : Memory.wf s.config s.MEM) (a : Nat) (bs : List Byte)
    (h : a + bs.length ≤ 4096) (e : Nat) :
    (s.writeBytes a bs).readByte e =
      if a ≤ e ∧ e < a + bs.length then bs.getD (e - a) 0 else s.readByte e := by
  induction bs generalizing s a with
  | nil => simp [State.writeBytes]
  | cons b bs ih =>
    simp only [List.length_cons] at h
    rw [State.writeBytes, ih (s.writeByte a b) (Memory.wf_write _ _ hm a (by omega) b) (a + 1) (by omega),
      State.readByte_writeByte s hm]
    by_cases he : e = a
    · subst he; simp
    · by_cases hin : a + 1 ≤ e ∧ e < a + 1 + bs.length
      · have h2 : a ≤ e ∧ e < a + (b :: bs).length := by simp only [List.length_cons]; omega
        rw [if_pos hin, if_pos h2]
        obtain ⟨d, rfl⟩ : ∃ d, e = a + 1 + d := ⟨e - (a + 1), by omega⟩
        rw [show a + 1 + d - (a + 1) = d by omega, show a + 1 + d - a = d + 1 by omega, List.getD_cons_succ]
      · have h2 : ¬ (a ≤ e ∧ e < a + (b :: bs).length) := by simp only [List.length_cons]; omega
        rw [if_neg hin, if_neg h2, if_neg he]

/-- The bytes a block read gives, one by one. -/
theorem State.readBytes_getD (s : State) (a n k : Nat) (h : k < n) :
    (s.readBytes a n).getD k 0 = s.readByte (a + k) := by
  simp [State.readBytes, h]

@[simp] theorem State.readBytes_length (s : State) (a n : Nat) : (s.readBytes a n).length = n := by
  simp [State.readBytes]

end Sys2Proof.Machine
end

