-- ==== Sys2Proof/Laws/Ops.lean ====
section
/-!
SUPPORT. One lemma per shared operation of Machine/Ops.lean, Operands.lean and Flags.lean: what it can do, said once.
-/

namespace Sys2Proof.Machine

/-! ## Registers -/

/-- A register after a register write (R11). -/
theorem State.getV_setV (s : State) (r q : Reg) (b : Byte) :
    (s.setV r b).getV q = if q = r then b else s.getV q := by
  by_cases h : q = r
  · subst h; simp [State.getV]
  · have h' : r.val ≠ q.val := fun e => h (Fin.ext e.symm)
    simp [State.getV, h, h']

@[simp] theorem State.getV_setV_same (s : State) (r : Reg) (b : Byte) : (s.setV r b).getV r = b := by
  simp [State.getV_setV]

@[simp] theorem State.getV_setV_ne (s : State) (r q : Reg) (b : Byte) (h : q ≠ r) :
    (s.setV r b).getV q = s.getV q := by
  simp [State.getV_setV, h]

/-- What a block of bytes leaves in register `q`. -/
theorem getElem_fillRegs (v : Vector Byte 16) (k : Nat) (bs : List Byte) (q : Nat) (hq : q < 16) :
    (fillRegs v k bs)[q] = if k ≤ q ∧ q < k + bs.length then bs.getD (q - k) 0 else v[q] := by
  induction bs generalizing v k with
  | nil => simp [fillRegs]
  | cons b bs ih =>
    rw [fillRegs, ih, Vector.getElem_setIfInBounds]
    by_cases he : k = q
    · subst he; simp
    · by_cases hin : k + 1 ≤ q ∧ q < k + 1 + bs.length
      · have h2 : k ≤ q ∧ q < k + (b :: bs).length := by simp only [List.length_cons]; omega
        rw [if_pos hin, if_pos h2]
        obtain ⟨d, rfl⟩ : ∃ d, q = k + 1 + d := ⟨q - (k + 1), by omega⟩
        rw [show k + 1 + d - (k + 1) = d by omega, show k + 1 + d - k = d + 1 by omega, List.getD_cons_succ]
      · have h2 : ¬ (k ≤ q ∧ q < k + (b :: bs).length) := by simp only [List.length_cons]; omega
        rw [if_neg hin, if_neg h2, if_neg he]

/-- The registers FX65 loads, one by one (R165). -/
theorem State.getV_fillFromV0 (s : State) (bs : List Byte) (q : Reg) :
    (s.fillFromV0 bs).getV q = if q.val < bs.length then bs.getD q.val 0 else s.getV q := by
  simp [State.getV, getElem_fillRegs]

@[simp] theorem State.regsUpTo_length (s : State) (x : Reg) : (s.regsUpTo x).length = x.val + 1 := by
  simp [State.regsUpTo]

/-- The bytes FX55 stores, one by one (R164). -/
theorem State.regsUpTo_getD (s : State) (x q : Reg) (h : q ≤ x) : (s.regsUpTo x).getD q.val 0 = s.getV q := by
  have hq : q.val < x.val + 1 := Nat.lt_succ_of_le h
  simp [State.regsUpTo, State.getV, List.getD_eq_getElem?_getD, hq]

/-! ## Address checks -/

/-- The address decoder's answer: the lowest address of the range that is 4096 or more (R52, R68). -/
theorem outOfBounds_eq_some (base n a : Nat) :
    outOfBounds base n = some a ↔ base ≤ a ∧ a < base + n ∧ 4096 ≤ a ∧ ∀ b, base ≤ b → 4096 ≤ b → a ≤ b := by
  unfold outOfBounds
  by_cases h : n ≠ 0 ∧ 4096 < base + n
  · rw [if_pos h]
    constructor
    · intro e
      obtain rfl := Option.some.inj e
      exact ⟨le_max_left _ _, by omega, le_max_right _ _, fun b h1 h2 => by omega⟩
    · rintro ⟨h1, -, h3, h4⟩
      exact congrArg some (Nat.le_antisymm (max_le h1 h3) (h4 _ (le_max_left _ _) (le_max_right _ _)))
  · rw [if_neg h]
    refine ⟨fun e => by simp at e, fun ⟨h1, h2, h3, _⟩ => absurd (show n ≠ 0 ∧ 4096 < base + n from ?_) h⟩
    omega

/-- A range that lies inside memory passes. -/
theorem outOfBounds_eq_none (base n : Nat) : outOfBounds base n = none ↔ n = 0 ∨ base + n ≤ 4096 := by
  unfold outOfBounds
  split <;> simp <;> omega

/-- A checked access that passes is the access. -/
theorem State.guardRange_of_le (s : State) (w : Word) (base n : Nat) (body : State) (h : n = 0 ∨ base + n ≤ 4096) :
    s.guardRange w base n body = body := by
  rw [State.guardRange, (outOfBounds_eq_none base n).2 h]

/-- A checked access with an address outside memory raises and does nothing else (R68). -/
theorem State.guardRange_of_gt (s : State) (w : Word) (base n : Nat) (body : State) (h0 : n ≠ 0)
    (h : 4096 < base + n) :
    s.guardRange w base n body = s.raise .memoryOutOfBounds (some w) (some (max base 4096)) := by
  rw [State.guardRange, outOfBounds, if_pos ⟨h0, h⟩]

/-- Everything a checked access can do. -/
theorem State.guardRange_cases (s : State) (w : Word) (base n : Nat) (body : State) :
    ((n = 0 ∨ base + n ≤ 4096) ∧ s.guardRange w base n body = body) ∨
    ((n ≠ 0 ∧ 4096 < base + n) ∧
      s.guardRange w base n body = s.raise .memoryOutOfBounds (some w) (some (max base 4096))) := by
  by_cases h : n = 0 ∨ base + n ≤ 4096
  · exact .inl ⟨h, s.guardRange_of_le w base n body h⟩
  · exact .inr ⟨by omega, s.guardRange_of_gt w base n body (by omega) (by omega)⟩

/-! ## The call stack -/

/-- A push that succeeds (R29). -/
theorem State.push_eq_some (s t : State) (v : Word) (h : s.push v = some t) :
    ∃ hs : s.SP.val < 16, t = { s with S := s.S.set s.SP.val v hs, SP := ⟨s.SP.val + 1, by omega⟩ } := by
  unfold State.push at h
  split at h
  · next hs => exact ⟨hs, (Option.some.inj h).symm⟩
  · exact absurd h (by simp)

/-- A push fails exactly on a full stack (R29). -/
theorem State.push_eq_none (s : State) (v : Word) : s.push v = none ↔ s.SP = 16 := by
  have h16 : (s.SP = 16) ↔ s.SP.val = 16 := Fin.ext_iff
  rw [h16, State.push]
  split
  · simp only [reduceCtorEq, false_iff]; omega
  · simp only [true_iff]; omega

/-- A pop that succeeds (R29). -/
theorem State.pop_eq_some (s t : State) (v : Word) (h : s.pop = some (v, t)) :
    ∃ hs : 0 < s.SP.val, v = s.S[s.SP.val - 1]'(by omega) ∧ t = { s with SP := ⟨s.SP.val - 1, by omega⟩ } := by
  unfold State.pop at h
  split at h
  · next hs =>
    obtain ⟨h1, h2⟩ := Prod.mk.inj (Option.some.inj h)
    exact ⟨hs, h1.symm, h2.symm⟩
  · exact absurd h (by simp)

/-- A pop fails exactly on an empty stack (R29). -/
theorem State.pop_eq_none (s : State) : s.pop = none ↔ s.SP = 0 := by
  have h0 : (s.SP = 0) ↔ s.SP.val = 0 := Fin.ext_iff
  rw [h0, State.pop]
  split
  · simp only [reduceCtorEq, false_iff]; omega
  · simp only [true_iff]; omega

/-! ## The fetch -/

/-- A fetch that succeeds reads two bytes of memory, the first one high (R53). -/
theorem State.fetch_eq_ok (s : State) (w : Word) :
    s.fetch = .ok w ↔
      s.pc.toNat + 1 < 4096 ∧ w = wordOfBytes (s.readByte s.pc.toNat) (s.readByte (s.pc.toNat + 1)) := by
  unfold State.fetch
  by_cases h : s.pc.toNat + 1 < 4096
  · rw [(outOfBounds_eq_none s.pc.toNat 2).2 (.inr (by omega))]
    simp only [Except.ok.injEq, h, true_and, eq_comm]
  · rw [outOfBounds, if_pos ⟨by omega, by omega⟩]
    simp [h]

/-- A fetch fails with the lowest of its two addresses that is 4096 or more (R53). -/
theorem State.fetch_eq_error (s : State) (a : Nat) :
    s.fetch = .error a ↔ 4096 ≤ s.pc.toNat + 1 ∧ a = if 4096 ≤ s.pc.toNat then s.pc.toNat else s.pc.toNat + 1 := by
  unfold State.fetch
  by_cases h : s.pc.toNat + 1 < 4096
  · rw [(outOfBounds_eq_none s.pc.toNat 2).2 (.inr (by omega))]
    simp; omega
  · rw [outOfBounds, if_pos ⟨by omega, by omega⟩]
    simp only [Except.error.injEq]
    split <;> omega

/-! ## Keys -/

/-- The keys of a mask are its set bits (R34). -/
theorem mem_keysOf (m : Word) (k : Reg) : k ∈ keysOf m ↔ m.getLsbD k.val = true := by
  simp [keysOf]

theorem keysOf_eq_nil (m : Word) : keysOf m = [] ↔ m = 0 := by
  rw [List.eq_nil_iff_forall_not_mem]
  constructor
  · intro h
    apply BitVec.eq_of_getLsbD_eq
    intro j hj
    have := h ⟨j, hj⟩
    rw [mem_keysOf] at this
    simpa using this
  · rintro rfl k
    simp [mem_keysOf]

/-- There is no key to choose exactly when no key is newly pressed (R195). -/
theorem State.drawKey_eq_none (s : State) (m : Word) : s.drawKey m = none ↔ m = 0 := by
  rw [← keysOf_eq_nil, State.drawKey]
  split <;> simp_all

/-- The chosen key is one of the mask (R197). -/
theorem State.drawKey_mem (s : State) (m : Word) (k : Reg) (h : s.drawKey m = some k) : m.getLsbD k.val = true := by
  rw [← mem_keysOf]
  rw [State.drawKey] at h
  split at h
  · exact absurd h (by simp)
  · next k' hk => rw [hk]; simp_all
  · next k' ks _ hk =>
    rw [hk, ← Option.some.inj h, List.getD_eq_getElem _ _ (Nat.mod_lt _ (by simp))]
    exact List.getElem_mem _

/-- Everything a poll can do (R195). -/
theorem State.poll_cases (s : State) (dst : Reg) (prev : Word) :
    (newlyPressed s.K prev = 0 ∧ s.poll dst prev = s.setKW (.waiting dst s.K)) ∨
    ∃ k : Reg, s.drawKey (newlyPressed s.K prev) = some k ∧ s.K.getLsbD k.val = true ∧ prev.getLsbD k.val = false ∧
      s.poll dst prev = (((s.setV dst (BitVec.ofNat 8 k.val)).setKW .none).countDraw).advance := by
  unfold State.poll
  cases h : s.drawKey (newlyPressed s.K prev) with
  | none => exact .inl ⟨(s.drawKey_eq_none _).1 h, rfl⟩
  | some k =>
    have hk := s.drawKey_mem _ k h
    simp only [newlyPressed, BitVec.getLsbD_and, BitVec.getLsbD_not, Bool.and_eq_true, Bool.not_eq_true',
      decide_eq_true_eq] at hk
    exact .inr ⟨k, rfl, hk.1, hk.2.2, rfl⟩

/-! ## Flags -/

/-- The registers after a flag-and-result write (R131). -/
theorem State.getV_writeFlagResult (s : State) (x q : Reg) (f r : Byte) :
    (s.writeFlagResult x f r).getV q =
      if q = vf then (if x = vf ∧ s.config.vfWriteOrder = .flagThenResult then r else f)
      else if q = x then r else s.getV q := by
  unfold State.writeFlagResult
  by_cases hq : q = vf
  · subst hq
    cases s.config.vfWriteOrder <;> by_cases hx : x = vf
    · simp [hx]
    · simp [hx, Ne.symm hx]
    · simp [hx]
    · simp [hx]
  · cases s.config.vfWriteOrder <;> simp [State.getV_setV, hq]

/-- A flag-and-result write touches registers only. -/
theorem State.writeFlagResult_eq (s : State) (x : Reg) (f r : Byte) :
    s.writeFlagResult x f r = { s with x := (s.writeFlagResult x f r).x } := by
  unfold State.writeFlagResult
  split <;> rfl

end Sys2Proof.Machine
end

