-- ==== Sys2Proof/Laws/Draw.lean ====
section
/-!
SUPPORT. The display: what one flip, one sprite bit and a whole sprite leave of every pixel (R181, R182, R183).
-/

namespace Sys2Proof.Machine

/-- A pixel after one flip. -/
theorem Display.pixel_flip (d : Display) (r r' : Fin 32) (c c' : Fin 64) :
    (d.flip r c).pixel r' c' = if r' = r ∧ c' = c then !d.pixel r c else d.pixel r' c' := by
  unfold Display.flip Display.pixel
  by_cases hr : r' = r
  · subst hr
    by_cases hc : c' = c
    · subst hc; simp
    · have hv : c.val ≠ c'.val := fun h => hc (Fin.ext h.symm)
      simp [hc, hv]
  · have hv : r.val ≠ r'.val := fun h => hr (Fin.ext h.symm)
    simp [hr, hv]

@[simp] theorem Display.pixel_clear (r : Fin 32) (c : Fin 64) : Display.clear.pixel r c = false := by
  simp [Display.clear, Display.pixel]

/-- The screen positions of a sprite's on bits, row by row, left to right. -/
def onBits (x0 y : Nat) : List Byte → List (Nat × Nat)
  | [] => []
  | b :: bs => ((List.range 8).filter (fun c => b.getLsbD (7 - c))).map (fun c => (x0 + c, y)) ++ onBits x0 (y + 1) bs

theorem mem_onBits (x0 y : Nat) (bs : List Byte) (p : Nat × Nat) :
    p ∈ onBits x0 y bs ↔
      ∃ k < bs.length, ∃ j < 8, (bs.getD k 0).getLsbD (7 - j) = true ∧ p = (x0 + j, y + k) := by
  induction bs generalizing y with
  | nil => simp [onBits]
  | cons b bs ih =>
    simp only [onBits, List.mem_append, List.mem_map, List.mem_filter, List.mem_range, ih, List.length_cons]
    constructor
    · rintro (⟨c, ⟨hc, hb⟩, rfl⟩ | ⟨k, hk, j, hj, hb, rfl⟩)
      · exact ⟨0, by omega, c, hc, by simpa using hb, rfl⟩
      · exact ⟨k + 1, by omega, j, hj, by simpa using hb, by rw [Nat.add_assoc, Nat.add_comm 1 k]⟩
    · rintro ⟨k, hk, j, hj, hb, rfl⟩
      cases k with
      | zero => exact .inl ⟨j, ⟨hj, by simpa using hb⟩, rfl⟩
      | succ k => exact .inr ⟨k, by omega, j, hj, by simpa using hb, by rw [Nat.add_assoc, Nat.add_comm 1 k]⟩

theorem onBits_nodup (x0 y : Nat) (bs : List Byte) : (onBits x0 y bs).Nodup := by
  induction bs generalizing y with
  | nil => exact List.nodup_nil
  | cons b bs ih =>
    rw [onBits, List.nodup_append]
    refine ⟨(List.nodup_range.filter _).map fun c c' h => by simpa using h, ih (y + 1), ?_⟩
    rintro p hp q hq rfl
    obtain ⟨c, -, rfl⟩ := List.mem_map.1 hp
    obtain ⟨k, -, j, -, -, h⟩ := (mem_onBits _ _ _ _).1 hq
    have := congrArg Prod.snd h
    simp at this
    omega

/-- Drawing a sprite is flipping at each of its on bits in turn. -/
theorem drawSprite_eq_foldl (edge : DrawEdge) (x0 y : Nat) (bs : List Byte) (acc : Display × Bool) :
    drawSprite edge x0 y bs acc = (onBits x0 y bs).foldl (fun a p => drawBit edge a p.1 p.2) acc := by
  induction bs generalizing y acc with
  | nil => rfl
  | cons b bs ih =>
    rw [drawSprite, ih, onBits, List.foldl_append, List.foldl_map, List.foldl_filter, drawRow]

/-- Where `place` puts a screen position (R182). -/
theorem place_eq_some (edge : DrawEdge) (cx cy : Nat) (r : Fin 32) (c : Fin 64) :
    place edge cx cy = some (r, c) ↔ LandsOn edge cx cy r c := by
  cases edge with
  | clip =>
    unfold place
    simp only
    split <;> simp [LandsOn, Fin.ext_iff] <;> omega
  | wrap => simp [place, LandsOn, Fin.ext_iff]; omega

/-- Two sprite bits fewer than 64 columns and 32 rows apart never land on one pixel (R182). -/
theorem place_inj (edge : DrawEdge) (x0 y0 j j' k k' : Nat) (hj : j < 8) (hj' : j' < 8) (hk : k < 32) (hk' : k' < 32)
    (rc : Fin 32 × Fin 64) (h : place edge (x0 + j) (y0 + k) = some rc)
    (h' : place edge (x0 + j') (y0 + k') = some rc) : j = j' ∧ k = k' := by
  obtain ⟨r, c⟩ := rc
  cases edge with
  | clip =>
    unfold place at h h'
    simp only at h h'
    split at h <;> split at h'
    all_goals simp only [Option.some.injEq, Prod.mk.injEq, Fin.ext_iff, reduceCtorEq] at h h'
    omega
  | wrap =>
    simp only [place, Option.some.injEq, Prod.mk.injEq, Fin.ext_iff] at h h'
    omega

/-- Flipping at positions that land on different pixels: every pixel landed on changes, no other does, and a collision
is recorded exactly when one of them was on. -/
theorem foldl_drawBit (edge : DrawEdge) (ps : List (Nat × Nat)) (acc : Display × Bool)
    (hp : ps.Pairwise fun p q => ∀ rc, place edge p.1 p.2 = some rc → place edge q.1 q.2 ≠ some rc) :
    (∀ r c, (ps.foldl (fun a p => drawBit edge a p.1 p.2) acc).1.pixel r c =
      (acc.1.pixel r c ^^ decide (∃ p ∈ ps, place edge p.1 p.2 = some (r, c)))) ∧
    (ps.foldl (fun a p => drawBit edge a p.1 p.2) acc).2 =
      (acc.2 || decide (∃ p ∈ ps, ∃ r c, place edge p.1 p.2 = some (r, c) ∧ acc.1.pixel r c = true)) := by
  induction ps generalizing acc with
  | nil => simp
  | cons p ps ih =>
    obtain ⟨hhead, htail⟩ := List.pairwise_cons.1 hp
    obtain ⟨ih1, ih2⟩ := ih (drawBit edge acc p.1 p.2) htail
    rw [List.foldl_cons]
    cases hpl : place edge p.1 p.2 with
    | none =>
      have hb : drawBit edge acc p.1 p.2 = acc := by simp [drawBit, hpl]
      rw [hb] at ih1 ih2 ⊢
      refine ⟨fun r c => (ih1 r c).trans ?_, ih2.trans ?_⟩ <;>
        simp only [List.exists_mem_cons_iff, hpl, reduceCtorEq, false_and, exists_const, false_or]
    | some rc =>
      obtain ⟨r0, c0⟩ := rc
      have hb : drawBit edge acc p.1 p.2 = (acc.1.flip r0 c0, acc.2 || acc.1.pixel r0 c0) := by simp [drawBit, hpl]
      have hno : ∀ q ∈ ps, place edge q.1 q.2 ≠ some (r0, c0) := fun q hq => hhead q hq _ hpl
      rw [hb] at ih1 ih2 ⊢
      constructor
      · intro r c
        rw [ih1, Display.pixel_flip]
        by_cases hrc : r = r0 ∧ c = c0
        · obtain ⟨rfl, rfl⟩ := hrc
          have : ¬ ∃ q ∈ ps, place edge q.1 q.2 = some (r, c) := fun ⟨q, hq, h⟩ => hno q hq h
          simp [this, hpl]
        · have : ¬ (r0 = r ∧ c0 = c) := fun h => hrc ⟨h.1.symm, h.2.symm⟩
          simp [hrc, hpl, this]
      · rw [ih2, Bool.or_assoc]
        refine congrArg (acc.2 || ·) ?_
        rw [Bool.eq_iff_iff]
        simp only [Bool.or_eq_true, decide_eq_true_eq, List.exists_mem_cons_iff, hpl, Option.some.injEq,
          Prod.mk.injEq]
        constructor
        · rintro (h | ⟨q, hq, r, c, h, hon⟩)
          · exact .inl ⟨r0, c0, ⟨rfl, rfl⟩, h⟩
          · refine .inr ⟨q, hq, r, c, h, ?_⟩
            rw [Display.pixel_flip, if_neg fun e => hno q hq (by rw [h, e.1, e.2])] at hon
            exact hon
        · rintro (⟨r, c, ⟨rfl, rfl⟩, hon⟩ | ⟨q, hq, r, c, h, hon⟩)
          · exact .inl hon
          · refine .inr ⟨q, hq, r, c, h, ?_⟩
            rw [Display.pixel_flip, if_neg fun e => hno q hq (by rw [h, e.1, e.2])]
            exact hon

/-- Landing on a pixel, by the list of on bits. -/
theorem exists_onBits (edge : DrawEdge) (x0 y0 : Nat) (bs : List Byte) (r : Fin 32) (c : Fin 64) :
    (∃ p ∈ onBits x0 y0 bs, place edge p.1 p.2 = some (r, c)) ↔ Covers edge x0 y0 bs r c := by
  constructor
  · rintro ⟨p, hp, h⟩
    obtain ⟨k, hk, j, hj, hb, rfl⟩ := (mem_onBits _ _ _ _).1 hp
    exact ⟨k, hk, j, hj, hb, (place_eq_some _ _ _ _ _).1 h⟩
  · rintro ⟨k, hk, j, hj, hb, h⟩
    exact ⟨(x0 + j, y0 + k), (mem_onBits _ _ _ _).2 ⟨k, hk, j, hj, hb, rfl⟩, (place_eq_some _ _ _ _ _).2 h⟩

/-- Everything drawing a sprite of at most 32 rows does: it turns over exactly the pixels its on bits land on, and
reports a collision exactly when one of those was on (R181, R183). -/
theorem drawSprite_spec (edge : DrawEdge) (x0 y0 : Nat) (bs : List Byte) (hlen : bs.length ≤ 32) (d : Display) :
    (∀ r c, ((drawSprite edge x0 y0 bs (d, false)).1.pixel r c = true ↔
      (d.pixel r c = true ↔ ¬ Covers edge x0 y0 bs r c))) ∧
    ((drawSprite edge x0 y0 bs (d, false)).2 = true ↔ ∃ r c, Covers edge x0 y0 bs r c ∧ d.pixel r c = true) := by
  have hp : (onBits x0 y0 bs).Pairwise fun p q => ∀ rc, place edge p.1 p.2 = some rc → place edge q.1 q.2 ≠ some rc := by
    refine List.Pairwise.imp_of_mem (fun {p q} hp hq hne rc h h' => ?_) (onBits_nodup x0 y0 bs)
    obtain ⟨k, hk, j, hj, -, rfl⟩ := (mem_onBits _ _ _ _).1 hp
    obtain ⟨k', hk', j', hj', -, rfl⟩ := (mem_onBits _ _ _ _).1 hq
    obtain ⟨rfl, rfl⟩ := place_inj edge x0 y0 j j' k k' hj hj' (by omega) (by omega) rc h h'
    exact hne rfl
  obtain ⟨h1, h2⟩ := foldl_drawBit edge _ (d, false) hp
  rw [drawSprite_eq_foldl]
  refine ⟨fun r c => ?_, ?_⟩
  · rw [h1, ← exists_onBits]
    by_cases hc : ∃ p ∈ onBits x0 y0 bs, place edge p.1 p.2 = some (r, c) <;>
      cases d.pixel r c <;> simp [hc]
  · rw [h2, Bool.false_or, decide_eq_true_eq]
    constructor
    · rintro ⟨p, hp, r, c, h, hon⟩
      exact ⟨r, c, (exists_onBits _ _ _ _ _ _).1 ⟨p, hp, h⟩, hon⟩
    · rintro ⟨r, c, hcov, hon⟩
      obtain ⟨p, hp, h⟩ := (exists_onBits _ _ _ _ _ _).2 hcov
      exact ⟨p, hp, r, c, h, hon⟩

end Sys2Proof.Machine
end

