-- ==== Sys2Proof/Laws/Frame.lean ====
section
/-!
SUPPORT. Frames compose, the fault entry has its frame, and the operand and flag functions as natural numbers.
-/

namespace Sys2Proof.Machine

theorem Keeps.refl (rs : List Reg) (ps : List Part) (s : State) : Keeps rs ps s s := by
  constructor <;> first | rfl | (intros; rfl)

/-- Two frames one after the other. -/
theorem Keeps.trans {rs : List Reg} {ps : List Part} {s t u : State} (h : Keeps rs ps s t) (g : Keeps rs ps t u) :
    Keeps rs ps s u where
  regs r hr     := (g.regs r hr).trans (h.regs r hr)
  index hp      := (g.index hp).trans (h.index hp)
  pc hp         := (g.pc hp).trans (h.pc hp)
  depth hp      := (g.depth hp).trans (h.depth hp)
  stack hp k    := (g.stack hp k).trans (h.stack hp k)
  delay hp      := (g.delay hp).trans (h.delay hp)
  sound hp      := (g.sound hp).trans (h.sound hp)
  memory hp a   := (g.memory hp a).trans (h.memory hp a)
  display hp r c := (g.display hp r c).trans (h.display hp r c)
  keyWait hp    := (g.keyWait hp).trans (h.keyWait hp)
  fault hp      := (g.fault hp).trans (h.fault hp)
  draws hp      := (g.draws hp).trans (h.draws hp)
  keys          := g.keys.trans h.keys
  config        := g.config.trans h.config
  schedule      := g.schedule.trans h.schedule

/-- The fault entry is the record and nothing else (R213). -/
theorem raisesIn_raise (s : State) (k : Fault) (w : Option Word) (a : Option Nat) : RaisesIn s k w a (s.raise k w a) :=
  ⟨rfl, by constructor <;> first | rfl | (intros; first | rfl | contradiction)⟩

/-- A flag-and-result write with the step past it: its frame. -/
theorem keeps_writeFlagResult (s : State) (x : Reg) (f r : Byte) :
    Keeps [x, vf] [.pc] s (s.writeFlagResult x f r).advance := by
  have hx : ∀ q, q ∉ [x, vf] → (s.writeFlagResult x f r).advance.getV q = s.getV q := by
    intro q hq
    simp only [List.mem_cons, List.not_mem_nil, or_false, not_or] at hq
    rw [State.advance_getV, State.getV_writeFlagResult, if_neg hq.2, if_neg hq.1]
  rw [s.writeFlagResult_eq x f r] at hx ⊢
  constructor <;> first | exact hx | rfl | (intros; first | rfl | contradiction)

theorem writeFlagResult_advance_pc (s : State) (x : Reg) (f r : Byte) :
    (s.writeFlagResult x f r).advance.pc = s.pc + 2 := by
  rw [s.writeFlagResult_eq x f r]; rfl

/-- What VX and VF hold after a flag-and-result write (R131). -/
theorem holds_writeFlagResult (s : State) (x : Reg) (f r : Byte) :
    HoldsFlagAndResult s x f.toNat r.toNat (s.writeFlagResult x f r).advance := by
  constructor
  · intro h
    simp [State.getV_writeFlagResult, h]
  · rintro rfl
    simp only [State.advance_getV, State.getV_writeFlagResult]
    simp only [if_true, true_and]
    split <;> rfl

theorem flagByte_toNat (p : Prop) [Decidable p] : (flagByte (decide p)).toNat = if p then 1 else 0 := by
  by_cases h : p <;> simp [flagByte, h]

@[simp] theorem zextAddr_toNat (nnn : Addr12) : (zextAddr nnn).toNat = nnn.toNat := by
  simp [zextAddr]; omega

@[simp] theorem computedTarget_toNat (nnn : Addr12) (v : Byte) :
    (computedTarget nnn v).toNat = nnn.toNat + v.toNat := by
  simp [computedTarget, zextAddr]; omega

@[simp] theorem maskIndex_toNat (n : Nat) : (maskIndex n).toNat = n % 4096 := by
  simp [maskIndex]; omega

theorem State.indexAfterTransfer_toNat (s : State) (x : Reg) :
    (s.indexAfterTransfer x).toNat =
      if s.config.loadStoreIndex = .advance then (s.I.toNat + x.val + 1) % 4096 else s.I.toNat := by
  unfold State.indexAfterTransfer
  cases s.config.loadStoreIndex <;> simp

/-- A glyph's address, for every `FONT_BASE` up to the bound of R25 (R162). -/
theorem glyphAddress_toNat (c : Config) (h : c.fontBase ≤ 0xFB4) (v : Byte) :
    (glyphAddress c v).toNat = c.fontBase + 5 * (v.toNat % 16) := by
  simp [glyphAddress]; omega

/-- The key an index names is that key (R190). -/
theorem keyIndex_eq_some (v : Byte) (k : Reg) : keyIndex v = some k ↔ v.toNat = k.val := by
  unfold keyIndex
  split
  · simp [Fin.ext_iff]
  · simp; omega

theorem keyIndex_eq_none (v : Byte) : keyIndex v = none ↔ 0xF < v.toNat := by
  unfold keyIndex
  split <;> simp <;> omega

end Sys2Proof.Machine
end

