-- ==== Sys2Proof/Laws/PerInstr.lean ====
section
/-!
SUPPORT. One fact per instruction, over every constructor: its word is legal under R75 to R80.
-/

namespace Sys2Proof.Laws

/-- The word of an instruction is legal: the encoder never leaves the opcode map (R80). -/
def EncodesLegally.Statement (i : Instr) : Prop := (fieldsOf (encode i)).legal = true

theorem EncodesLegally.cls : EncodesLegally.Statement (.cls) := by
  rfl
theorem EncodesLegally.ret : EncodesLegally.Statement (.ret) := by
  rfl
theorem EncodesLegally.jp (nnn : Addr12) : EncodesLegally.Statement (.jp nnn) := by
  simp [Statement, encode, Fields.legal]
theorem EncodesLegally.call (nnn : Addr12) : EncodesLegally.Statement (.call nnn) := by
  simp [Statement, encode, Fields.legal]
theorem EncodesLegally.seImm (x : Reg) (nn : Byte) : EncodesLegally.Statement (.seImm x nn) := by
  simp [Statement, encode, Fields.legal]
theorem EncodesLegally.sneImm (x : Reg) (nn : Byte) : EncodesLegally.Statement (.sneImm x nn) := by
  simp [Statement, encode, Fields.legal]
theorem EncodesLegally.seReg (x y : Reg) : EncodesLegally.Statement (.seReg x y) := by
  simp [Statement, encode, Fields.legal]
theorem EncodesLegally.ldImm (x : Reg) (nn : Byte) : EncodesLegally.Statement (.ldImm x nn) := by
  simp [Statement, encode, Fields.legal]
theorem EncodesLegally.addImm (x : Reg) (nn : Byte) : EncodesLegally.Statement (.addImm x nn) := by
  simp [Statement, encode, Fields.legal]
theorem EncodesLegally.ldReg (x y : Reg) : EncodesLegally.Statement (.ldReg x y) := by
  simp [Statement, encode, Fields.legal, legalSub8]
theorem EncodesLegally.orReg (x y : Reg) : EncodesLegally.Statement (.orReg x y) := by
  simp [Statement, encode, Fields.legal, legalSub8]
theorem EncodesLegally.andReg (x y : Reg) : EncodesLegally.Statement (.andReg x y) := by
  simp [Statement, encode, Fields.legal, legalSub8]
theorem EncodesLegally.xorReg (x y : Reg) : EncodesLegally.Statement (.xorReg x y) := by
  simp [Statement, encode, Fields.legal, legalSub8]
theorem EncodesLegally.addReg (x y : Reg) : EncodesLegally.Statement (.addReg x y) := by
  simp [Statement, encode, Fields.legal, legalSub8]
theorem EncodesLegally.subReg (x y : Reg) : EncodesLegally.Statement (.subReg x y) := by
  simp [Statement, encode, Fields.legal, legalSub8]
theorem EncodesLegally.shr (x y : Reg) : EncodesLegally.Statement (.shr x y) := by
  simp [Statement, encode, Fields.legal, legalSub8]
theorem EncodesLegally.subnReg (x y : Reg) : EncodesLegally.Statement (.subnReg x y) := by
  simp [Statement, encode, Fields.legal, legalSub8]
theorem EncodesLegally.shl (x y : Reg) : EncodesLegally.Statement (.shl x y) := by
  simp [Statement, encode, Fields.legal, legalSub8]
theorem EncodesLegally.sneReg (x y : Reg) : EncodesLegally.Statement (.sneReg x y) := by
  simp [Statement, encode, Fields.legal]
theorem EncodesLegally.ldI (nnn : Addr12) : EncodesLegally.Statement (.ldI nnn) := by
  simp [Statement, encode, Fields.legal]
theorem EncodesLegally.jpV0 (nnn : Addr12) : EncodesLegally.Statement (.jpV0 nnn) := by
  simp [Statement, encode, Fields.legal]
theorem EncodesLegally.rnd (x : Reg) (nn : Byte) : EncodesLegally.Statement (.rnd x nn) := by
  simp [Statement, encode, Fields.legal]
theorem EncodesLegally.drw (x y : Reg) (n : Nibble) : EncodesLegally.Statement (.drw x y n) := by
  simp [Statement, encode, Fields.legal]
theorem EncodesLegally.skp (x : Reg) : EncodesLegally.Statement (.skp x) := by
  simp [Statement, encode, Fields.legal, legalLowE]
theorem EncodesLegally.sknp (x : Reg) : EncodesLegally.Statement (.sknp x) := by
  simp [Statement, encode, Fields.legal, legalLowE]
theorem EncodesLegally.ldVxDt (x : Reg) : EncodesLegally.Statement (.ldVxDt x) := by
  simp [Statement, encode, Fields.legal, legalLowF]
theorem EncodesLegally.ldVxK (x : Reg) : EncodesLegally.Statement (.ldVxK x) := by
  simp [Statement, encode, Fields.legal, legalLowF]
theorem EncodesLegally.ldDtVx (x : Reg) : EncodesLegally.Statement (.ldDtVx x) := by
  simp [Statement, encode, Fields.legal, legalLowF]
theorem EncodesLegally.ldStVx (x : Reg) : EncodesLegally.Statement (.ldStVx x) := by
  simp [Statement, encode, Fields.legal, legalLowF]
theorem EncodesLegally.addI (x : Reg) : EncodesLegally.Statement (.addI x) := by
  simp [Statement, encode, Fields.legal, legalLowF]
theorem EncodesLegally.ldF (x : Reg) : EncodesLegally.Statement (.ldF x) := by
  simp [Statement, encode, Fields.legal, legalLowF]
theorem EncodesLegally.ldB (x : Reg) : EncodesLegally.Statement (.ldB x) := by
  simp [Statement, encode, Fields.legal, legalLowF]
theorem EncodesLegally.storeRegs (x : Reg) : EncodesLegally.Statement (.storeRegs x) := by
  simp [Statement, encode, Fields.legal, legalLowF]
theorem EncodesLegally.loadRegs (x : Reg) : EncodesLegally.Statement (.loadRegs x) := by
  simp [Statement, encode, Fields.legal, legalLowF]

end Sys2Proof.Laws
end

