-- ==== Sys2Proof/Laws/Step.lean ====
section
/-!
SUPPORT. What one step can be, case by case of the host's turn (R230 to R232), of the core's step and of the
instruction (R100).
-/

namespace Sys2Proof.Machine

/-- After a fault nothing changes (R217). -/
theorem step_of_fault (s : State) (h : s.FAULT.isSome = true) : step s = .next s := by
  simp [step, State.hostTurn, h]

/-- With no schedule the host invokes `step()`. -/
theorem step_of_nil (s : State) (h : s.schedule = []) : step s = s.coreStep := by
  unfold step State.hostTurn State.coreStep
  split <;> simp_all

/-- A scheduled step. -/
theorem step_of_step (s : State) (l : List HostOp) (hf : s.FAULT = none) (h : s.schedule = .step :: l) :
    step s = (s.setSchedule l).coreStep := by
  simp [step, State.hostTurn, hf, h]

/-- The state a core step is taken from differs in the schedule alone. -/
theorem State.stepsFrom_eq (s u : State) (h : s.stepsFrom u) : u = s.setSchedule u.schedule := by
  rcases h with ⟨-, rfl⟩ | ⟨l, -, rfl⟩ <;> rfl

/-- A scheduled tick (R231). -/
theorem step_of_tick (s : State) (l : List HostOp) (hf : s.FAULT = none) (h : s.schedule = .tick :: l) :
    step s = .next (s.setSchedule l).tick := by
  simp [step, State.hostTurn, hf, h]

/-- A scheduled key update (R232). -/
theorem step_of_setKeys (s : State) (m : Word) (l : List HostOp) (hf : s.FAULT = none)
    (h : s.schedule = .setKeys m :: l) : step s = .next ((s.setSchedule l).setKeys m) := by
  simp [step, State.hostTurn, hf, h]

/-- A step while a key-wait is pending is a poll (R195). -/
theorem State.coreStep_of_waiting (s : State) (dst : Reg) (prev : Word) (hf : s.FAULT = none)
    (h : s.KW = .waiting dst prev) : s.coreStep = .next (s.poll dst prev) := by
  simp [State.coreStep, hf, h]

/-- A step that waits for nothing runs an instruction (R100). -/
theorem State.coreStep_of_running (s : State) (hf : s.FAULT = none) (h : s.KW = .none) :
    s.coreStep = s.runInstruction := by
  simp [State.coreStep, hf, h]

theorem State.runInstruction_of_error (s : State) (a : Nat) (h : s.fetch = .error a) :
    s.runInstruction = .next (s.raise .memoryOutOfBounds none (some a)) := by
  simp [State.runInstruction, h]

theorem State.runInstruction_of_illegal (s : State) (w : Word) (e : DecodeError) (h : s.fetch = .ok w)
    (hd : decodeWord w = .error e) : s.runInstruction = .next (s.raise .illegalInstruction (some w) none) := by
  simp [State.runInstruction, h, hd]

theorem State.runInstruction_of_ok (s : State) (w : Word) (i : Instr) (h : s.fetch = .ok w)
    (hd : decodeWord w = .ok i) : s.runInstruction = exec i s := by
  simp [State.runInstruction, h, hd]

/-- Everything an instruction step can be. -/
theorem State.runInstruction_cases (s : State) :
    (∃ a, s.fetch = .error a ∧ s.runInstruction = .next (s.raise .memoryOutOfBounds none (some a))) ∨
    (∃ w e, s.fetch = .ok w ∧ decodeWord w = .error e ∧
      s.runInstruction = .next (s.raise .illegalInstruction (some w) none)) ∨
    (∃ w i, s.fetch = .ok w ∧ decodeWord w = .ok i ∧ s.runInstruction = exec i s) := by
  cases h : s.fetch with
  | error a => exact .inl ⟨a, rfl, s.runInstruction_of_error a h⟩
  | ok w =>
    cases hd : decodeWord w with
    | error e => exact .inr (.inl ⟨w, e, rfl, hd, s.runInstruction_of_illegal w e h hd⟩)
    | ok i => exact .inr (.inr ⟨w, i, rfl, hd, s.runInstruction_of_ok w i h hd⟩)

/-- Everything one operation can be. -/
theorem step_cases (s : State) :
    (s.FAULT.isSome = true ∧ step s = .next s) ∨
    (s.FAULT = none ∧
      ((s.schedule = [] ∧ step s = s.coreStep) ∨
       (∃ l, s.schedule = .step :: l ∧ step s = (s.setSchedule l).coreStep) ∨
       (∃ l, s.schedule = .tick :: l ∧ step s = .next (s.setSchedule l).tick) ∨
       ∃ m l, s.schedule = .setKeys m :: l ∧ step s = .next ((s.setSchedule l).setKeys m))) := by
  cases hf : s.FAULT with
  | some r => exact .inl ⟨rfl, step_of_fault s (by simp [hf])⟩
  | none =>
    refine .inr ⟨rfl, ?_⟩
    match h : s.schedule with
    | [] => exact .inl ⟨rfl, step_of_nil s h⟩
    | .step :: l => exact .inr (.inl ⟨l, rfl, step_of_step s l hf h⟩)
    | .tick :: l => exact .inr (.inr (.inl ⟨l, rfl, step_of_tick s l hf h⟩))
    | .setKeys m :: l => exact .inr (.inr (.inr ⟨m, l, rfl, step_of_setKeys s m l hf h⟩))

end Sys2Proof.Machine
end

