-- ==== Sys2Proof/Tests/Slice0.lean ====
section
/-!
SUPPORT. The model's own tests. Expected results are the spec's: W<n> and the tables of 95_test_vectors.md, the patterns
of the opcode map (R74), the illegal words of R80. The `test_meets_…` theorems are the witnesses: states and operands
that meet the hypotheses of the statement they are named after, at the boundary values of each clause.
-/

namespace Sys2Proof.Machine

/-! ## Builders -/

/-- The state the vectors start from: reset, with pc = 0x300. -/
def at300 : State := { State.reset with pc := 0x300 }

/-- `s` with registers set. -/
def State.with (s : State) (vs : List (Reg × Byte)) : State := vs.foldl (fun s p => s.setV p.1 p.2) s

/-- `s` with bytes of memory set. -/
def State.bytes (s : State) (a : Nat) (bs : List Byte) : State := s.writeBytes a bs

/-- What a run answers, looked at by `p`; false when it is no next state. -/
def after (o : Result State) (p : State → Bool) : Bool :=
  match o with
  | .next t => p t
  | .fault _ => false
  | .refused _ => false

/-- One step of `s` with the word `w` at pc. -/
def ran (s : State) (w : Nat) (p : State → Bool) : Bool := after (step (s.withFetchWord 16 w)) p

/-- One instruction on `s`. -/
def did (i : Instr) (s : State) (p : State → Bool) : Bool := after (exec i s) p

/-- The fault of a state is this record. -/
def faulted (t : State) (k : Fault) (pc : Word) (word : Option Word) (addr : Option Nat) : Bool :=
  t.FAULT = some { kind := k, pc := pc, word := word, addr := addr }

/-- The decoder rejects the word under this name. -/
def rejects (e : DecodeError) (w : Word) : Bool :=
  match decodeWord w with
  | .ok _ => false
  | .error d => d = e

/-- The machine with other choices of R8. -/
def withY : State := { at300 with config := { defaultConfig with shiftSource := .Y } }
def withWrap : State := { at300 with config := { defaultConfig with drawEdge := .wrap } }
def withAdvance : State := { at300 with config := { defaultConfig with loadStoreIndex := .advance } }
def withFlagLast : State := { at300 with config := { defaultConfig with vfWriteOrder := .resultThenFlag } }

/-- The configuration with the highest FONT_BASE that is well formed (log 6). -/
def highFont : Config := { defaultConfig with fontBase := 0xFB0 }

/-- A pixel that is on. -/
def State.lit (s : State) (r : Fin 32) (c : Fin 64) : State := s.setD (s.D.flip r c)

/-- The pixels of row `r` that are on. -/
def State.row (s : State) (r : Fin 32) : List Nat :=
  ((List.finRange 64).filter (fun c => s.D.pixel r c)).map (fun c => c.val)

/-! ## Well-formedness: one ill-formed term for each check -/

theorem test_illformed_class0 : (fieldsOf 0x00E1).legal = false := by decide
theorem test_illformed_class5 : (fieldsOf 0x5121).legal = false := by decide
theorem test_illformed_class9 : (fieldsOf 0x912F).legal = false := by decide
theorem test_illformed_class8 : (fieldsOf 0x8128).legal = false := by decide
theorem test_illformed_classE : (fieldsOf 0xE19F).legal = false := by decide
theorem test_illformed_classF : (fieldsOf 0xF100).legal = false := by decide
theorem test_illformed_font_past_memory : ¬ ({ defaultConfig with fontBase := 0xFB1 } : Config).wf := by decide
theorem test_illformed_font_short :
    ¬ ({ defaultConfig with font := defaultConfig.font.tail } : Config).wf := by decide
theorem test_illformed_program_too_long : ¬ programFits (List.replicate 3585 0) := by
  rw [programFits, List.length_replicate]; decide
theorem test_wellformed : (fieldsOf 0xD4A3).legal = true ∧ defaultConfig.wf ∧ highFont.wf ∧ programFits [] := by decide

/-! ## Decoding: one written word for each instruction (R74), and the illegal words (section 2.1) -/

theorem test_decode_class0 : decodeWord 0x00E0 = .ok .cls ∧ decodeWord 0x00EE = .ok .ret := ⟨rfl, rfl⟩
theorem test_decode_jumps :
    decodeWord 0x1234 = .ok (.jp 0x234) ∧ decodeWord 0x2210 = .ok (.call 0x210) ∧
    decodeWord 0xA123 = .ok (.ldI 0x123) ∧ decodeWord 0xBFFE = .ok (.jpV0 0xFFE) := ⟨rfl, rfl, rfl, rfl⟩
theorem test_decode_immediates :
    decodeWord 0x3142 = .ok (.seImm 1 0x42) ∧ decodeWord 0x4A43 = .ok (.sneImm 0xA 0x43) ∧
    decodeWord 0x6A2C = .ok (.ldImm 0xA 0x2C) ∧ decodeWord 0x7F01 = .ok (.addImm 0xF 0x01) ∧
    decodeWord 0xC50F = .ok (.rnd 5 0x0F) := ⟨rfl, rfl, rfl, rfl, rfl⟩
theorem test_decode_register_skips :
    decodeWord 0x5120 = .ok (.seReg 1 2) ∧ decodeWord 0x9340 = .ok (.sneReg 3 4) := ⟨rfl, rfl⟩
theorem test_decode_logic :
    decodeWord 0x8120 = .ok (.ldReg 1 2) ∧ decodeWord 0x8121 = .ok (.orReg 1 2) ∧
    decodeWord 0x8122 = .ok (.andReg 1 2) ∧ decodeWord 0x8123 = .ok (.xorReg 1 2) := ⟨rfl, rfl, rfl, rfl⟩
theorem test_decode_arithmetic :
    decodeWord 0x8124 = .ok (.addReg 1 2) ∧ decodeWord 0x8125 = .ok (.subReg 1 2) ∧
    decodeWord 0x8126 = .ok (.shr 1 2) ∧ decodeWord 0x8127 = .ok (.subnReg 1 2) ∧
    decodeWord 0x812E = .ok (.shl 1 2) := ⟨rfl, rfl, rfl, rfl, rfl⟩
theorem test_decode_draw : decodeWord 0xD4A3 = .ok (.drw 4 0xA 3) := rfl
theorem test_decode_keys : decodeWord 0xE19E = .ok (.skp 1) ∧ decodeWord 0xE1A1 = .ok (.sknp 1) := ⟨rfl, rfl⟩
theorem test_decode_timers :
    decodeWord 0xF307 = .ok (.ldVxDt 3) ∧ decodeWord 0xF50A = .ok (.ldVxK 5) ∧
    decodeWord 0xF315 = .ok (.ldDtVx 3) ∧ decodeWord 0xF318 = .ok (.ldStVx 3) := ⟨rfl, rfl, rfl, rfl⟩
theorem test_decode_index :
    decodeWord 0xF21E = .ok (.addI 2) ∧ decodeWord 0xF029 = .ok (.ldF 0) ∧ decodeWord 0xF033 = .ok (.ldB 0) ∧
    decodeWord 0xF255 = .ok (.storeRegs 2) ∧ decodeWord 0xFF65 = .ok (.loadRegs 0xF) := ⟨rfl, rfl, rfl, rfl, rfl⟩
theorem test_decode_illegal_class0 : [0x00E1, 0x0000, 0x0123, 0x00FF].all (rejects .class0) := by decide
theorem test_decode_illegal_class5_class9 : rejects .class5 0x5121 ∧ rejects .class9 0x912F := by decide
theorem test_decode_illegal_class8 :
    [0x8128, 0x8129, 0x812A, 0x812B, 0x812C, 0x812D, 0x812F].all (rejects .class8) := by decide
theorem test_decode_illegal_classE : [0xE19F, 0xE1A0, 0xE100].all (rejects .classE) := by decide
theorem test_decode_illegal_classF : [0xF100, 0xF108, 0xF130, 0xF175, 0xF1FF].all (rejects .classF) := by decide
theorem test_decode_truncated : decodeBytes [0xD4] = .error .truncated := rfl
theorem test_decode_bytes_big_endian : decodeBytes [0xD4, 0xA3, 0x00] = .ok (.drw 4 0xA 3, [0x00]) := rfl
theorem test_decode_table_word : decodeTableWord 16 0xF255 = some (.storeRegs 2) := rfl

/-! ## The step -/

theorem test_step_illegal :
    ran at300 0x8128 (fun t => faulted t .illegalInstruction 0x300 (some 0x8128) none && t.pc = 0x300) := by decide
theorem test_step_fetch_at_0xFFF :
    after (step { at300 with pc := 0xFFF })
      (fun t => faulted t .memoryOutOfBounds 0xFFF none (some 0x1000) && t.pc = 0xFFF) := by decide
theorem test_step_fetch_past_memory :
    after (step { at300 with pc := 0x10FE }) (fun t => faulted t .memoryOutOfBounds 0x10FE none (some 0x10FE)) := by
  decide
theorem test_fault_codes :
    [Fault.illegalInstruction, .stackOverflow, .stackUnderflow, .memoryOutOfBounds, .programTooLarge].map Fault.code
      = [1, 2, 3, 4, 5] := by decide

/-! ## Control transfer (section 2.2) -/

theorem test_ret : ran { at300 with SP := 1, S := at300.S.set 0 0x206 } 0x00EE (fun t => t.SP = 0 && t.pc = 0x206) := by
  decide
theorem test_ret_underflow :
    ran at300 0x00EE (fun t => faulted t .stackUnderflow 0x300 (some 0x00EE) none && t.pc = 0x300) := by decide
theorem test_jp : ran at300 0x1234 (fun t => t.pc = 0x234) := by decide
theorem test_jp_odd : ran at300 0x1301 (fun t => t.pc = 0x301) := by decide
theorem test_call :
    ran { at300 with SP := 15 } 0x2400 (fun t => t.S[15] = 0x302 && t.SP = 16 && t.pc = 0x400) := by decide
theorem test_call_overflow :
    ran { at300 with SP := 16 } 0x2400
      (fun t => faulted t .stackOverflow 0x300 (some 0x2400) none && t.SP = 16 && t.pc = 0x300) := by decide
theorem test_call_at_0xFFE :
    ran { at300 with pc := 0xFFE } 0x2400 (fun t => t.S[0] = 0x1000 && t.SP = 1 && t.pc = 0x400) := by decide
theorem test_seImm :
    ran (at300.with [(1, 0x42)]) 0x3142 (fun t => t.pc = 0x304) ∧
    ran (at300.with [(1, 0x42)]) 0x3143 (fun t => t.pc = 0x302) := by decide
theorem test_seImm_at_0xFFE : ran { at300 with pc := 0xFFE } 0x3100 (fun t => t.pc = 0x1002) := by decide
theorem test_sneImm :
    ran (at300.with [(1, 0x42)]) 0x4142 (fun t => t.pc = 0x302) ∧
    ran (at300.with [(1, 0x42)]) 0x4143 (fun t => t.pc = 0x304) := by decide
theorem test_seReg :
    ran (at300.with [(1, 7), (2, 7)]) 0x5120 (fun t => t.pc = 0x304) ∧
    ran (at300.with [(1, 7), (2, 8)]) 0x5120 (fun t => t.pc = 0x302) := by decide
theorem test_sneReg :
    ran (at300.with [(1, 7), (2, 8)]) 0x9120 (fun t => t.pc = 0x304) ∧ ran at300 0x9110 (fun t => t.pc = 0x302) := by
  decide
theorem test_jpV0 : ran (at300.with [(0, 0x10)]) 0xB300 (fun t => t.pc = 0x310) := by decide
theorem test_jpV0_not_masked : ran (at300.with [(0, 0xFF)]) 0xBFFF (fun t => t.pc = 0x10FE) := by decide

/-! ## Register loads and the ALU (section 2.3) -/

theorem test_ldImm : ran at300 0x6A2C (fun t => t.getV 0xA = 0x2C && t.pc = 0x302) := by decide
theorem test_addImm :
    ran (at300.with [(1, 0xFF), (15, 0x55)]) 0x7101 (fun t => t.getV 1 = 0x00 && t.getV vf = 0x55) := by decide
theorem test_ldReg : ran (at300.with [(2, 0x33)]) 0x8120 (fun t => t.getV 1 = 0x33) := by decide
theorem test_orReg :
    ran (at300.with [(1, 0x0F), (2, 0xF0), (15, 0x77)]) 0x8121 (fun t => t.getV 1 = 0xFF && t.getV vf = 0x77) := by
  decide
theorem test_andReg : ran (at300.with [(1, 0x3C), (2, 0x0F)]) 0x8122 (fun t => t.getV 1 = 0x0C) := by decide
theorem test_xorReg : ran (at300.with [(1, 0x3C), (2, 0x0F)]) 0x8123 (fun t => t.getV 1 = 0x33) := by decide
theorem test_addReg_flag_source :
    ran (at300.with [(1, 0x01), (15, 0xFF)]) 0x81F4 (fun t => t.getV 1 = 0x00 && t.getV vf = 1) := by decide
theorem test_addReg_into_flag :
    ran (at300.with [(1, 0x20), (15, 0xF0)]) 0x8F14 (fun t => t.getV vf = 0x10) ∧
    ran (withFlagLast.with [(1, 0x20), (15, 0xF0)]) 0x8F14 (fun t => t.getV vf = 1) := by decide
theorem test_subReg : ran (at300.with [(2, 0x01)]) 0x8125 (fun t => t.getV 1 = 0xFF && t.getV vf = 0) := by decide
theorem test_subReg_same : ran (at300.with [(3, 0x42)]) 0x8335 (fun t => t.getV 3 = 0x00 && t.getV vf = 1) := by decide
theorem test_shr : ran (at300.with [(3, 0xFF)]) 0x8306 (fun t => t.getV 3 = 0x7F && t.getV vf = 1) := by decide
theorem test_shr_source_y :
    ran (withY.with [(2, 0x03)]) 0x8126 (fun t => t.getV 1 = 0x01 && t.getV vf = 1 && t.getV 2 = 0x03) := by decide
theorem test_subnReg :
    ran (at300.with [(1, 0x0A), (2, 0x05)]) 0x8127 (fun t => t.getV 1 = 0xFB && t.getV vf = 0) := by decide
theorem test_subnReg_equal :
    ran (at300.with [(1, 0x09), (2, 0x09)]) 0x8127 (fun t => t.getV 1 = 0x00 && t.getV vf = 1) := by decide
theorem test_shl : ran (at300.with [(3, 0x7F)]) 0x830E (fun t => t.getV 3 = 0xFE && t.getV vf = 0) := by decide
theorem test_shl_source_y :
    ran (withY.with [(1, 0x11), (2, 0xC0)]) 0x812E (fun t => t.getV 1 = 0x80 && t.getV vf = 1) := by decide
/-- "any r | 0xC500 | x[5]=0x00": the free byte does not matter under a mask of 0. -/
theorem test_rnd_masked_out : did (.rnd 5 0x00) at300 (fun t => t.getV 5 = 0x00 && t.pc = 0x302) := by
  simp [did, after, exec, execRnd, at300, State.reset, State.construct]

/-! ## The index register and memory (section 2.4) -/

theorem test_ldI : ran at300 0xA123 (fun t => t.I = 0x123) := by decide
theorem test_addI_wraps :
    ran ({ at300 with I := 0xFFF }.with [(2, 0x01)]) 0xF21E (fun t => t.I = 0x000 && t.getV vf = 1) := by decide
theorem test_addI_of_flag :
    ran ({ at300 with I := 0x100 }.with [(15, 0x10)]) 0xFF1E (fun t => t.I = 0x110 && t.getV vf = 0) := by decide
theorem test_ldF : ran (at300.with [(0, 0x0A)]) 0xF029 (fun t => t.I = 0x082) := by decide
theorem test_ldF_low_nibble : ran (at300.with [(0, 0x1A)]) 0xF029 (fun t => t.I = 0x082) := by decide
theorem test_ldB :
    ran ({ at300 with I := 0x400 }.with [(0, 157)]) 0xF033 (fun t => t.readBytes 0x400 3 = [1, 5, 7]) := by decide
theorem test_ldB_out_of_bounds :
    ran ({ at300 with I := 0xFFE }.with [(0, 157)]) 0xF033
      (fun t => faulted t .memoryOutOfBounds 0x300 (some 0xF033) (some 0x1000) && t.readBytes 0xFFE 2 = [0, 0]) := by
  decide
theorem test_storeRegs_advance :
    ran ({ withAdvance with I := 0x400 }.with [(0, 1), (1, 2), (2, 3)]) 0xF255
      (fun t => t.readBytes 0x400 4 = [1, 2, 3, 0] && t.I = 0x403) := by decide
theorem test_storeRegs_out_of_bounds :
    ran ({ at300 with I := 0xFF1 }.with [(0, 9)]) 0xFF55
      (fun t => faulted t .memoryOutOfBounds 0x300 (some 0xFF55) (some 0x1000) && t.readByte 0xFF1 = 0) := by decide
theorem test_loadRegs :
    ran ({ at300.bytes 0x400 [1, 5, 7, 9] with I := 0x400 }) 0xF265
      (fun t => t.getV 0 = 1 && t.getV 1 = 5 && t.getV 2 = 7 && t.getV 3 = 0 && t.I = 0x400) := by decide
theorem test_loadRegs_out_of_bounds :
    ran ({ at300 with I := 0xFFF }.with [(0, 9)]) 0xF165
      (fun t => faulted t .memoryOutOfBounds 0x300 (some 0xF165) (some 0x1000) && t.getV 0 = 9) := by decide
theorem test_memory_canonical :
    (at300.bytes 0x400 [1, 2]).MEM = [(0x400, 1), (0x401, 2)] ∧
    ((at300.bytes 0x400 [1, 2]).bytes 0x400 [0]).MEM = [(0x401, 2)] := by decide

/-! ## The display (section 2.5) -/

theorem test_cls : ran ((at300.lit 3 4).with [(15, 9)]) 0x00E0 (fun t => t.row 3 = [] && t.getV vf = 9) := by decide
theorem test_drw_clips :
    ran ({ at300.bytes 0x500 [0xFF] with I := 0x500 }.with [(0, 62)]) 0xD011
      (fun t => t.row 0 = [62, 63] && t.getV vf = 0) := by decide
theorem test_drw_wraps :
    ran ({ withWrap.bytes 0x500 [0xFF] with I := 0x500 }.with [(0, 62)]) 0xD011
      (fun t => t.row 0 = [0, 1, 2, 3, 4, 5, 62, 63] && t.getV vf = 0) := by decide
theorem test_drw_start_wraps :
    ran ({ at300.bytes 0x500 [0x80] with I := 0x500 }.with [(0, 0x45), (1, 0x21)]) 0xD011
      (fun t => t.row 1 = [5] && t.getV vf = 0) := by decide
theorem test_drw_collides :
    ran ({ (at300.lit 0 1).bytes 0x500 [0x40] with I := 0x500 }) 0xD011 (fun t => t.row 0 = [] && t.getV vf = 1) := by
  decide
theorem test_drw_flag_as_coordinate :
    ran ({ at300.bytes 0x500 [0x80] with I := 0x500 }.with [(15, 3)]) 0xDF01
      (fun t => t.row 0 = [3] && t.getV vf = 0) := by decide
theorem test_drw_no_rows : ran ((at300.lit 0 0).with [(15, 0x55)]) 0xD010 (fun t => t.row 0 = [0] && t.getV vf = 0) := by
  decide
theorem test_drw_out_of_bounds :
    ran ({ at300 with I := 0xFFE }.with [(15, 5)]) 0xD013
      (fun t => faulted t .memoryOutOfBounds 0x300 (some 0xD013) (some 0x1000) && t.getV vf = 5) := by decide

/-! ## Keys and timers (section 2.6) -/

theorem test_skp :
    ran ({ at300 with K := 0x0020 }.with [(1, 5)]) 0xE19E (fun t => t.pc = 0x304) ∧
    ran (at300.with [(1, 5)]) 0xE19E (fun t => t.pc = 0x302) := by decide
theorem test_sknp :
    ran (at300.with [(1, 5)]) 0xE1A1 (fun t => t.pc = 0x304) ∧
    ran ({ at300 with K := 0xFFFF }.with [(1, 5)]) 0xE1A1 (fun t => t.pc = 0x302) := by decide
theorem test_skp_sknp_bad_key :
    ran (at300.with [(1, 0x10)]) 0xE19E
      (fun t => faulted t .memoryOutOfBounds 0x300 (some 0xE19E) (some 0x10)) ∧
    ran (at300.with [(1, 0x10)]) 0xE1A1
      (fun t => faulted t .memoryOutOfBounds 0x300 (some 0xE1A1) (some 0x10)) := by decide
theorem test_ldVxDt : ran { at300 with DT := 0x3C } 0xF307 (fun t => t.getV 3 = 0x3C) := by decide
theorem test_ldDtVx : ran (at300.with [(3, 0x78)]) 0xF315 (fun t => t.DT = 0x78) := by decide
theorem test_ldStVx : ran (at300.with [(3, 0x02)]) 0xF318 (fun t => t.ST = 0x02 && t.readSound) := by decide
theorem test_tick_stops_at_zero :
    (at300.tick).DT = 0 ∧ ({ at300 with ST := 2 }.ticks 2).readSound = false := by decide
theorem test_tick_after_fault : ({ at300 with DT := 5 }.raise .stackOverflow none none).tick.DT = 5 := by decide
theorem test_ldVxK : ran at300 0xF50A (fun t => t.KW = .waiting 5 0x0000 && t.pc = 0x300) := by decide
theorem test_poll_new_key :
    after (step { at300 with KW := .waiting 5 0x0000, K := 0x0100 })
      (fun t => t.getV 5 = 8 && t.KW = .none && t.pc = 0x302) := by decide
theorem test_poll_held_key :
    after (step { at300 with KW := .waiting 5 0x0001, K := 0x0001 })
      (fun t => t.KW = .waiting 5 0x0001 && t.pc = 0x300) := by decide
theorem test_poll_released_key :
    after (step { at300 with KW := .waiting 5 0x0001, K := 0x0000 }) (fun t => t.KW = .waiting 5 0x0000) := by decide

/-! ## Witnesses -/

/-- A state that waits for a key, inside a call, whose FX0A stands in memory at pc. -/
def waitingState : State :=
  { at300.bytes 0x300 [0xF5, 0x0A] with
    KW := .waiting 5 0x0001, K := 0x0001, SP := 1, S := at300.S.set 0 0x1000, I := 0xFFF }

/-- A state in which an error is recorded. -/
def faultedState : State := at300.raise .stackOverflow (some 0x2400) none

theorem test_meets_EncodeOfDecodeIsTheWord : decodeWord 0xD4A3 = .ok (.drw 4 0xA 3) := rfl

/-- One illegal word of each list of R80, fetched by a state that runs. -/
theorem test_meets_ListedWordsAreExactlyTheIllegalOnes :
    [0x0000, 0x00EF, 0x5001, 0x9001, 0x8008, 0x800F, 0xE09D, 0xE0A2, 0xF006, 0xF066].all (fun w =>
      let s := at300.placeWord w
      !(fieldsOf w).legal && s.FAULT = none && s.KW = .none && s.schedule = [] && s.fetch.toOption = some w) := by
  decide

/-- The last pc at which a word can be fetched, with an empty schedule and with one that starts with a step. -/
theorem test_meets_StepRunsTheInstructionAtPc :
    let s := { at300.bytes 0xFFE [0x24, 0x00] with pc := 0xFFE }
    s.FAULT = none ∧ s.KW = .none ∧ s.pc.toNat + 1 < 4096 ∧ s.schedule = [] ∧
    decodeBytes [s.readByte s.pc.toNat, s.readByte (s.pc.toNat + 1)] = .ok (.call 0x400, []) ∧
    (s.setSchedule [.step, .tick]).schedule = .step :: [.tick] := by decide

/-- Both forms of `stepsFrom`, the hypothesis of the statements about a step that polls, fails its fetch or fetches an
illegal word. -/
theorem test_meets_StepIsTheCoreStep_and_stepsFrom (s : State) :
    (s.setSchedule []).stepsFrom (s.setSchedule []) ∧
    (s.setSchedule [.step, .tick]).stepsFrom (s.setSchedule [.tick]) :=
  ⟨.inl ⟨rfl, rfl⟩, .inr ⟨[.tick], rfl, rfl⟩⟩

/-- A scheduled step polls, fails its fetch and fetches an illegal word as an unscheduled one does. -/
theorem test_scheduled_step :
    after (step { at300 with KW := .waiting 5 0x0000, K := 0x0100, schedule := [.step, .tick] })
      (fun t => t.getV 5 = 8 && t.KW = .none && t.pc = 0x302 && t.schedule = [.tick]) ∧
    after (step { at300 with pc := 0xFFF, schedule := [.step, .tick] })
      (fun t => faulted t .memoryOutOfBounds 0xFFF none (some 0x1000) && t.schedule = [.tick]) ∧
    after (step { at300 with schedule := [.step, .tick] })
      (fun t => faulted t .illegalInstruction 0x300 (some 0x0000) none && t.schedule = [.tick]) := by decide

theorem test_meets_FetchIsBigEndianAndChecked :
    let p (v : Word) : State := { at300 with pc := v }
    (p 0xFFE).pc.toNat + 1 < 4096 ∧ 4096 ≤ (p 0xFFF).pc.toNat + 1 ∧ 4096 ≤ (p 0x1000).pc.toNat ∧
    (p 0xFFF).FAULT = none ∧ (p 0xFFF).KW = .none ∧ (p 0xFFF).schedule = [] := by decide

theorem test_meets_FaultedSessionIsFrozen : faultedState.FAULT ≠ none := by decide

/-- A failed fetch, an illegal word and an error of an instruction. -/
theorem test_meets_FaultsArePrecise :
    at300.FAULT = none ∧
    after { at300 with pc := 0xFFF }.coreStep (fun t => t.FAULT.isSome) ∧
    after at300.coreStep (fun t => t.FAULT.isSome) ∧
    after (at300.placeWord 0x00EE).coreStep (fun t => t.FAULT.isSome) := by decide

/-- The invariant at its bounds, with a key-wait pending, and a step from there. -/
theorem test_meets_EveryOperationKeepsTheInvariant :
    SessionInv waitingState ∧ after (step waitingState) (fun t => t.pc = 0x300) :=
  ⟨{ config := by decide
     memory := by decide
     index  := by decide
     pc     := by decide
     stack  := by decide
     wait   := by
      intro d p h
      cases h
      rfl }, by decide⟩

/-- Two configurations, and the addresses on either side of the font (R60). -/
theorem test_meets_statements_over_configurations :
    defaultConfig.wf ∧ highFont.wf ∧ (∀ i < 80, 0x04F ≠ defaultConfig.fontBase + i) ∧
    ∀ i < 80, 0x0A0 ≠ defaultConfig.fontBase + i := by decide

theorem test_meets_ConfigurationIsFixed : after (step at300) (fun _ => true) := by decide

theorem test_meets_LoadPlacesTheProgram :
    (List.replicate 3584 (0 : Byte)).length ≤ 3584 ∧ 3584 < (List.replicate 3585 (0 : Byte)).length := by
  rw [List.length_replicate, List.length_replicate]; decide

theorem test_meets_ScheduledHostOperationsRun :
    (at300.setSchedule [.tick]).FAULT = none ∧ (at300.setSchedule [.tick]).schedule = .tick :: [] ∧
    (at300.setSchedule [.setKeys 0x0200, .step]).schedule = .setKeys 0x0200 :: [.step] := by decide

/-- The stack empty, with one entry and full; room for one more, and none. -/
theorem test_meets_RetPopsThePc_CallPushesTheReturnAddress_CallThenRetComesBack :
    let d (v : Fin 17) : State := { at300 with SP := v }
    (d 0).SP = 0 ∧ 0 < (d 1).SP.val ∧ 0 < (d 16).SP.val ∧ (d 16).SP = 16 ∧ (d 15).SP.val < 16 ∧ (d 0).SP.val < 16 := by
  decide

theorem test_meets_TimersAreReadAndSet : at300.FAULT = none := rfl

/-- A return to 0x1000, at which no word can be fetched. -/
theorem test_meets_RetPopsThePc_at_0x1000 :
    did .ret { at300 with SP := 1, S := at300.S.set 0 0x1000 } (fun t => t.pc = 0x1000) := by decide

theorem test_meets_JpSetsThePc_JpV0AddsRegisterZero :
    (0xFFF : Addr12) = 0xFFF ∧ 0xFFF ≤ (0xFFE : Addr12).toNat + ((at300.with [(0, 1)]).getV 0).toNat := by decide

theorem test_meets_SkipsOnTwoRegisters :
    let u (w : Word) : State := at300.placeWord w
    (1 : Nibble) ≠ 0 ∧ (u 0x5121).FAULT = none ∧ (u 0x5121).KW = .none ∧ (u 0x5121).schedule = [] ∧
    (u 0x5121).fetch.toOption = some (wordXYN 0x5 (fieldOf 1) (fieldOf 2) 1) ∧
    (u 0x912F).fetch.toOption = some (wordXYN 0x9 (fieldOf 1) (fieldOf 2) 0xF) := by decide

theorem test_meets_ShiftsMoveOneBitIntoVf : at300.config.shiftSource = .X ∧ withY.config.shiftSource = .Y := by decide

theorem test_meets_IndexIsSetSummedAndPointed : at300.config.fontBase ≤ 0xFB4 ∧ ({ defaultConfig with fontBase := 0xFB4 } : Config).fontBase ≤ 0xFB4 := by decide

/-- The last I at which three bytes fit, the first at which they do not, and one past memory. -/
theorem test_meets_BcdStoresThreeDigits :
    let s (i : Word) : State := { at300 with I := i }
    (s 0xFFD).I.toNat + 2 < 4096 ∧ Memory.wf (s 0xFFD).config (s 0xFFD).MEM ∧ 4096 ≤ (s 0xFFE).I.toNat + 2 ∧
    4096 ≤ (s 0x1000).I.toNat + 2 := by decide

/-- V0..VF at the last I that fits and the first that does not; V0 alone at the last byte. -/
theorem test_meets_StoreRegistersToMemory_LoadRegistersFromMemory :
    let s (i : Word) : State := { at300.bytes 0x400 [1] with I := i }
    (s 0xFF0).I.toNat + (15 : Reg).val < 4096 ∧ (s 0xFFF).I.toNat + (0 : Reg).val < 4096 ∧
    Memory.wf (s 0xFF0).config (s 0xFF0).MEM ∧ 4096 ≤ (s 0xFF1).I.toNat + (15 : Reg).val := by decide

theorem test_meets_StoreThenLoadRestoresRegisters :
    let s := { at300.bytes 0x400 [1] with I := 0xFF0 }
    s.I.toNat + (15 : Reg).val < 4096 ∧ Memory.wf s.config s.MEM ∧ (3 : Reg) ≤ 15 ∧ (3 : Reg) < 4 := by decide

theorem test_meets_StoredCodeIsFetchedNext :
    let s := { at300 with I := 0x302 }
    1 ≤ (1 : Reg).val ∧ s.I = s.pc + 2 ∧ s.I.toNat + (1 : Reg).val < 4096 ∧ Memory.wf s.config s.MEM := by decide

/-- No rows wherever I points; the last I at which three rows fit; the first at which they do not. -/
theorem test_meets_DrawTurnsOverCoveredPixels_DrawTwiceRestoresTheDisplay :
    let s (i : Word) : State := { at300 with I := i }
    ((0 : Nibble) = 0 ∨ (s 0xFFF).I.toNat + (0 : Nibble).toNat ≤ 4096) ∧
    ((3 : Nibble) = 0 ∨ (s 0xFFD).I.toNat + (3 : Nibble).toNat ≤ 4096) ∧
    ((3 : Nibble) ≠ 0 ∧ 4096 < (s 0xFFE).I.toNat + (3 : Nibble).toNat) ∧ (0 : Reg) ≠ vf ∧ (14 : Reg) ≠ vf := by decide

/-- Each edge policy at the corner of the screen and just past it (R182). -/
theorem test_meets_LandsOn :
    LandsOn .clip 63 31 31 63 ∧ (∀ r c, ¬ LandsOn .clip 64 31 r c) ∧ (∀ r c, ¬ LandsOn .clip 63 32 r c) ∧
    LandsOn .wrap 63 31 31 63 ∧ LandsOn .wrap 64 32 0 0 := by
  refine ⟨by decide, fun r c h => ?_, fun r c h => ?_, by decide, by decide⟩
  · exact absurd (h.1 rfl).1 (by decide)
  · exact absurd (h.1 rfl).2.1 (by decide)

theorem test_meets_SkipsOnAKey :
    ((at300.with [(1, 0xF)]).getV 1).toNat ≤ 0xF ∧ 0xF < ((at300.with [(1, 0x10)]).getV 1).toNat := by decide

/-- No key newly pressed, and two of them. -/
theorem test_meets_KeyWaitPolls :
    waitingState.FAULT = none ∧ waitingState.schedule = [] ∧ waitingState.KW = .waiting 5 0x0001 ∧
    (∀ k : Reg, waitingState.K.getLsbD k.val = true → (0x0001#16).getLsbD k.val = true) ∧
    ∃ k : Reg, { waitingState with K := 0x0051 }.K.getLsbD k.val = true ∧ (0x0001#16).getLsbD k.val = false := by
  decide

theorem test_meets_TickCountsBothTimersDown_ManyTicksCountDownToZero :
    at300.FAULT = none ∧ faultedState.FAULT ≠ none := by decide

theorem test_meets_OnlyFlagInstructionsWriteVf :
    (did (.ldImm 1 7) at300 (fun _ => true) ∧ writesVfAsFlag (.ldImm 1 7) = false ∧
      vf ∉ namedDestinations (.ldImm 1 7)) ∧
    (did (.addReg 1 2) at300 (fun t => t.FAULT = none) ∧ at300.FAULT = none ∧ writesVfAsFlag (.addReg 1 2) = true ∧
      vf ∉ namedDestinations (.addReg 1 2)) := by decide

theorem test_meets_RegistersAreWrittenAsTabled :
    did (.loadRegs 3) at300 (fun _ => true) ∧ (4 : Reg) ∉ writes (.loadRegs 3) ∧ (3 : Reg) ∈ writes (.loadRegs 3) := by
  decide

/-- Each storing form changes a byte at the last address of its range. -/
theorem test_meets_OnlyStoresWriteMemory :
    let s := { at300 with I := 0xFFD }.with [(0, 157), (2, 9)]
    Memory.wf s.config s.MEM ∧ did (.ldB 0) s (fun t => t.readByte 0xFFF ≠ s.readByte 0xFFF) ∧
    did (.storeRegs 2) s (fun t => t.readByte 0xFFF ≠ s.readByte 0xFFF) := by decide

/-- Each special element of the state is changed by an instruction the statement names. -/
theorem test_meets_SpecialStateHasItsNamedWriters :
    did .cls (at300.lit 0 0) (fun t => t.D.pixel 0 0 ≠ (at300.lit 0 0).D.pixel 0 0) ∧
    did (.call 0x400) at300 (fun t => t.SP ≠ at300.SP) ∧ did (.ldI 1) at300 (fun t => t.I ≠ at300.I) ∧
    did (.loadRegs 2) withAdvance (fun t => t.I ≠ withAdvance.I) ∧
    did (.ldDtVx 1) (at300.with [(1, 3)]) (fun t => t.DT ≠ at300.DT) ∧
    did (.ldStVx 1) (at300.with [(1, 3)]) (fun t => t.ST ≠ at300.ST) ∧
    did (.ldVxK 1) at300 (fun t => t.KW ≠ at300.KW) := by decide

/-- Every arm of the statement has an instruction that raises it. -/
theorem test_meets_ErrorsComeFromTheirInstructions :
    let raised (k : Fault) (t : State) : Bool := (t.FAULT.map FaultRecord.kind) = some k
    at300.FAULT = none ∧ did .ret at300 (raised .stackUnderflow) ∧
    did (.call 0x400) { at300 with SP := 16 } (raised .stackOverflow) ∧
    did (.ldB 0) { at300 with I := 0xFFF } (raised .memoryOutOfBounds) ∧
    did (.skp 1) (at300.with [(1, 0x10)]) (raised .memoryOutOfBounds) ∧
    did (.drw 0 0 1) { at300 with I := 0x1000 } (raised .memoryOutOfBounds) := by decide

/-- An error, a key-wait, a skip taken and not taken, and an instruction of the last clause. -/
theorem test_meets_PcMovesByTwoUnlessSet :
    at300.FAULT = none ∧ did .ret at300 (fun t => t.FAULT ≠ none) ∧ did (.ldVxK 1) at300 (fun t => t.FAULT = none) ∧
    did (.seImm 1 0) at300 (fun t => t.FAULT = none) ∧ did (.seImm 1 1) at300 (fun t => t.FAULT = none) ∧
    isSkip (.seImm 1 0) = true ∧ did .cls at300 (fun t => t.FAULT = none) ∧ isJump .cls = false ∧
    isSkip .cls = false := by decide

end Sys2Proof.Machine
end

section
namespace Sys2Proof

/-- The decoder inverts the encoder: the fields of a layout read back what was laid out (R72), and each arm of the
decoder is selected by the class and the low bits that the opcode map writes for the instruction (R74). -/
@[simp] theorem decodeWord_encode (i : Instr) : decodeWord (encode i) = .ok i := by
  cases i with
  | cls | ret => rfl
  | ldReg | orReg | andReg | xorReg | addReg | subReg | shr | subnReg | shl =>
    simp [encode, decodeWord, decodeFields, decodeClass8]
  | skp | sknp => simp [encode, decodeWord, decodeFields, decodeClassE]
  | ldVxDt | ldVxK | ldDtVx | ldStVx | addI | ldF | ldB | storeRegs | loadRegs =>
    simp [encode, decodeWord, decodeFields, decodeClassF]
  | jp | call | seImm | sneImm | seReg | ldImm | addImm | sneReg | ldI | jpV0 | rnd | drw =>
    simp [encode, decodeWord, decodeFields]

/-- Settles O1: the fields of 0xD4A3 are computed, and each further word is the word of the instruction it is said to
stand for, which the decoder reads back. -/
theorem sampleWordsDecode : Obligations.SampleWordsDecode := by
  unfold Obligations.SampleWordsDecode
  have fields : fieldsOf 0xD4A3 = { op := 0xD, x := 4, y := 0xA, n := 3, nn := 0xA3, nnn := 0x4A3 } := by decide
  exact ⟨⟨fields, decodeWord_encode (.drw 4 0xA 3)⟩,
    decodeWord_encode .cls, decodeWord_encode .ret,
    decodeWord_encode (.jp 0x234), decodeWord_encode (.call 0x210),
    decodeWord_encode (.seImm 1 0x42), decodeWord_encode (.seReg 3 4),
    decodeWord_encode (.sneReg 3 4), decodeWord_encode (.addReg 0 1),
    decodeWord_encode (.subnReg 0 2), decodeWord_encode (.shl 3 0),
    decodeWord_encode (.rnd 5 0x0F), decodeWord_encode (.skp 1),
    decodeWord_encode (.ldVxK 5), decodeWord_encode (.storeRegs 2),
    decodeWord_encode (.loadRegs 2)⟩

end Sys2Proof
end

section
/-! What the control-transfer proofs share: the frames of a jump and of a stack transfer, what a fault entry records,
where a fetch fails, what a skip leaves in pc, and the two ways RET and CALL can end. -/
namespace Sys2Proof.Machine

/-! ## Frames and records -/

/-- A jump writes pc and nothing else (R11). -/
theorem keeps_setPc (s : State) (v : Word) : Keeps [] [.pc] s (s.setPc v) := by
  constructor <;> simp

/-- A jump from a state whose stack alone was replaced writes pc and the stack and nothing else. -/
theorem keeps_stack_setPc (s : State) (S : Vector Word 16) (SP : Fin 17) (v : Word) :
    Keeps [] [.pc, .stack] s ({ s with S := S, SP := SP }.setPc v) := by
  constructor <;> simp [State.getV, State.readByte]

/-- What can be read from a fault entry: the record's kind, address and word, and the frame (R213). -/
theorem RaisesIn.exists_record {s t : State} {kind : Fault} {word : Option Word} {addr : Option Nat}
    (h : RaisesIn s kind word addr t) :
    ∃ r, t.FAULT = some r ∧ r.kind = kind ∧ r.pc = s.pc ∧ r.word = word ∧ Keeps [] [.FAULT] s t :=
  ⟨_, h.1, rfl, rfl, rfl, h.2⟩

/-! ## The fetch and the skip -/

/-- From either of the two addresses 0xFFF and 0x1000 the fetch fails, and the address it names is 0x1000 (R53). -/
theorem State.fetch_eq_error_0x1000 (s : State) (lo : 0xFFF ≤ s.pc.toNat) (hi : s.pc.toNat ≤ 0x1000) :
    s.fetch = .error 0x1000 := by
  refine (s.fetch_eq_error 0x1000).2 ⟨by omega, ?_⟩
  split <;> omega

/-- Where a skip on a condition leaves pc (R103). -/
theorem State.skipIf_decide_pc (s : State) (p : Prop) [Decidable p] :
    (s.skipIf (decide p)).pc = if p then s.pc + 4 else s.pc + 2 := by
  by_cases h : p <;> simp [h]

/-! ## RET and CALL, with and without an error -/

/-- A pop that has an entry to take (R29). -/
theorem State.pop_of_pos (s : State) (h : 0 < s.SP.val) :
    s.pop = some (s.S[s.SP.val - 1]'(by omega), { s with SP := ⟨s.SP.val - 1, by omega⟩ }) :=
  dif_pos h

/-- A push that has room (R29). -/
theorem State.push_of_lt (s : State) (v : Word) (h : s.SP.val < 16) :
    s.push v = some { s with S := s.S.set s.SP.val v, SP := ⟨s.SP.val + 1, by omega⟩ } :=
  dif_pos h

/-- RET on an empty stack is the fault entry (R105). -/
theorem exec_ret_of_empty (s : State) (h : s.SP = 0) :
    exec .ret s = .next (s.raise .stackUnderflow (some (encode .ret)) none) := by
  simp only [exec, execRet, s.pop_eq_none.2 h]

/-- RET with an entry on the stack drops it and jumps to it (R105). -/
theorem exec_ret_of_pos (s : State) (h : 0 < s.SP.val) :
    exec .ret s =
      .next ({ s with SP := ⟨s.SP.val - 1, by omega⟩ }.setPc (s.S[s.SP.val - 1]'(by omega))) := by
  simp only [exec, execRet, s.pop_of_pos h]

/-- CALL on a full stack is the fault entry (R107). -/
theorem exec_call_of_full (nnn : Addr12) (s : State) (h : s.SP = 16) :
    exec (.call nnn) s = .next (s.raise .stackOverflow (some (encode (.call nnn))) none) := by
  simp only [exec, execCall, (s.push_eq_none _).2 h]

/-- CALL with room on the stack stores the address of the word after it and jumps (R107). -/
theorem exec_call_of_lt (nnn : Addr12) (s : State) (h : s.SP.val < 16) :
    exec (.call nnn) s =
      .next ({ s with S := s.S.set s.SP.val (s.pc + 2), SP := ⟨s.SP.val + 1, by omega⟩ }.setPc (zextAddr nnn)) := by
  simp only [exec, execCall, s.push_of_lt _ h]

end Sys2Proof.Machine
end

section
namespace Sys2Proof
open Machine

/-- Settles O18: an empty stack is the fault entry; otherwise the entries stay as they are and the top one is the new
pc, from which, when it is 0x1000, no word can be fetched. -/
theorem retPopsThePc : Obligations.RetPopsThePc := by
  refine ⟨decodeWord_encode .ret, fun s => ⟨fun h => ?_, fun h => ?_⟩⟩
  · exact ⟨_, (raisesIn_raise s _ _ _).exists_record.imp fun _ hr => ⟨exec_ret_of_empty s h, hr⟩⟩
  · refine ⟨_, exec_ret_of_pos s h, rfl, rfl, fun _ => rfl, keeps_stack_setPc s s.S _ _, fun hpc => ?_⟩
    exact State.fetch_eq_error_0x1000 _ (by rw [hpc]; decide) (by rw [hpc]; decide)

/-- Settles O19: pc is the 12-bit target, and the fetch from 0xFFF needs the byte at 0x1000. -/
theorem jpSetsThePc : Obligations.JpSetsThePc := by
  intro nnn s
  refine ⟨decodeWord_encode (.jp nnn), _, rfl, zextAddr_toNat nnn, keeps_setPc s _, ?_⟩
  rintro rfl
  exact State.fetch_eq_error_0x1000 _ (by simp) (by simp)

/-- Settles O20: a full stack is the fault entry; otherwise the entry at the old depth is the return address and every
other entry is read past that write. -/
theorem callPushesTheReturnAddress : Obligations.CallPushesTheReturnAddress := by
  refine fun nnn s => ⟨decodeWord_encode (.call nnn), fun h => ?_, fun h => ?_⟩
  · exact ⟨_, (raisesIn_raise s _ _ _).exists_record.imp fun _ hr => ⟨exec_call_of_full nnn s h, hr⟩⟩
  · exact ⟨_, exec_call_of_lt nnn s h, zextAddr_toNat nnn, rfl, Vector.getElem_set_self h,
      fun k hk => Vector.getElem_set_ne h k.isLt hk.symm, keeps_stack_setPc s _ _ _⟩

/-- Settles O21: both skips write pc alone, by 4 or 2 on their condition. -/
theorem skipsOnAnImmediate : Obligations.SkipsOnAnImmediate := by
  intro x nn s
  exact ⟨decodeWord_encode (.seImm x nn), decodeWord_encode (.sneImm x nn),
    ⟨_, rfl, s.skipIf_decide_pc (s.getV x = nn), keeps_setPc s _⟩,
    ⟨_, rfl, s.skipIf_decide_pc (s.getV x ≠ nn), keeps_setPc s _⟩⟩

end Sys2Proof
end

section
/-! What the proofs about register loads and the ALU without flags share: such an instruction is one register write and
the step past it (R102). -/
namespace Sys2Proof.Machine

/-- A register write with the step past it: the value of the register written. -/
theorem State.getV_setV_advance (s : State) (x : Reg) (b : Byte) : ((s.setV x b).advance).getV x = b := by
  rw [State.advance_getV, State.getV_setV_same]

/-- A register write with the step past it: its frame. -/
theorem keeps_setV_advance (s : State) (x : Reg) (b : Byte) : Keeps [x] [.pc] s (s.setV x b).advance := by
  have other : ∀ r, r ∉ [x] → ((s.setV x b).advance).getV r = s.getV r := fun r hr => by
    rw [State.advance_getV, State.getV_setV_ne s x r b (List.ne_of_not_mem_cons hr)]
  constructor
  case regs => exact other
  all_goals simp

end Sys2Proof.Machine
end

section
namespace Sys2Proof
open Machine

/-- Settles O25: each is one write of VX and the step past it, and a sum of bytes is the sum modulo 256. -/
theorem immediatesLoadAndAdd : Obligations.ImmediatesLoadAndAdd := by
  intro x nn s
  exact ⟨decodeWord_encode (.ldImm x nn), decodeWord_encode (.addImm x nn),
    ⟨_, rfl, s.getV_setV_advance x _, rfl, keeps_setV_advance s x _⟩,
    ⟨_, rfl, by rw [s.getV_setV_advance x, BitVec.toNat_add], rfl, keeps_setV_advance s x _⟩⟩

/-- Settles O26: each is one write of VX and the step past it, and the bits of a bitwise operation are those of its
operands, one by one. -/
theorem copyAndLogicWriteOnlyVx : Obligations.CopyAndLogicWriteOnlyVx := by
  intro x y s
  exact ⟨decodeWord_encode (.ldReg x y), decodeWord_encode (.orReg x y), decodeWord_encode (.andReg x y),
    decodeWord_encode (.xorReg x y),
    ⟨_, rfl, s.getV_setV_advance x _, rfl, keeps_setV_advance s x _⟩,
    ⟨_, rfl, rfl, keeps_setV_advance s x _, fun j _ => by rw [s.getV_setV_advance x, BitVec.getLsbD_or]⟩,
    ⟨_, rfl, rfl, keeps_setV_advance s x _, fun j _ => by rw [s.getV_setV_advance x, BitVec.getLsbD_and]⟩,
    ⟨_, rfl, rfl, keeps_setV_advance s x _, fun j _ => by rw [s.getV_setV_advance x, BitVec.getLsbD_xor]⟩⟩

end Sys2Proof
end

section
/-! What the proofs about I and memory share: a block of bytes stored inside memory read back address by address, its
frame, the frame of a write of I with and without a register write before it, and FX33 on either side of its
bound. -/
namespace Sys2Proof.Machine

/-! ## A stored block -/

/-- The `k`-th byte of a block stored inside memory, read back where it was put (R52, R59). -/
theorem State.readByte_writeBytes_add (s : State) (hm : Memory.wf s.config s.MEM) (a : Nat) (bs : List Byte)
    (h : a + bs.length ≤ 4096) (k : Nat) (hk : k < bs.length) :
    (s.writeBytes a bs).readByte (a + k) = bs.getD k 0 := by
  rw [s.readByte_writeBytes hm a bs h, if_pos ⟨by omega, by omega⟩, Nat.add_sub_cancel_left]

/-- A byte outside a stored block (R52, R59). -/
theorem State.readByte_writeBytes_outside (s : State) (hm : Memory.wf s.config s.MEM) (a : Nat) (bs : List Byte)
    (h : a + bs.length ≤ 4096) (e : Nat) (he : e < a ∨ a + bs.length ≤ e) :
    (s.writeBytes a bs).readByte e = s.readByte e := by
  rw [s.readByte_writeBytes hm a bs h, if_neg (by omega)]

/-- A stored block with the step past it: its frame. -/
theorem keeps_writeBytes_advance (s : State) (a : Nat) (bs : List Byte) :
    Keeps [] [.MEM, .pc] s (s.writeBytes a bs).advance := by
  constructor <;> simp

/-! ## A write of I -/

/-- A write of I with the step past it: its frame. -/
theorem keeps_setI_advance (s : State) (v : Word) : Keeps [] [.I, .pc] s (s.setI v).advance := by
  constructor <;> simp

/-- A register write and a write of I with the step past them: their frame. -/
theorem keeps_setV_setI_advance (s : State) (r : Reg) (b : Byte) (v : Word) :
    Keeps [r] [.I, .pc] s ((s.setV r b).setI v).advance := by
  have other : ∀ q, q ∉ [r] → ((s.setV r b).setI v).advance.getV q = s.getV q := fun q hq => by
    rw [State.advance_getV, State.setI_getV, State.getV_setV_ne s r q b (List.ne_of_not_mem_cons hq)]
  constructor
  case regs => exact other
  all_goals simp

/-! ## FX33: its digits and its two ends -/

/-- The digits of FX33 as numbers: hundreds, tens, units; each is below 10, so a byte holds it (R163). -/
theorem bcdDigits_toNat (v : Byte) :
    ((bcdDigits v).getD 0 0).toNat = v.toNat / 100 ∧ ((bcdDigits v).getD 1 0).toNat = v.toNat / 10 % 10 ∧
      ((bcdDigits v).getD 2 0).toNat = v.toNat % 10 :=
  ⟨Nat.mod_eq_of_lt (by omega), Nat.mod_eq_of_lt (by omega), Nat.mod_eq_of_lt (by omega)⟩

/-- FX33 with its three addresses inside memory stores the digits (R163). -/
theorem exec_ldB_of_lt (x : Reg) (s : State) (h : s.I.toNat + 2 < 4096) :
    exec (.ldB x) s = .next (s.writeBytes s.I.toNat (bcdDigits (s.getV x))).advance :=
  congrArg Host.Outcome.next (s.guardRange_of_le _ _ 3 _ (.inr (by omega)))

/-- FX33 with an address past memory is the fault entry, which names the lowest such address (R68, R163). -/
theorem exec_ldB_of_ge (x : Reg) (s : State) (h : 4096 ≤ s.I.toNat + 2) :
    exec (.ldB x) s =
      .next (s.raise .memoryOutOfBounds (some (encode (.ldB x))) (some (max s.I.toNat 4096))) :=
  congrArg Host.Outcome.next (s.guardRange_of_gt _ _ 3 _ (by omega) (by omega))

end Sys2Proof.Machine
end

section
namespace Sys2Proof
open Machine

/-- Settles O32: inside memory FX33 is a stored block of three digits, read back digit by digit and left alone outside;
past memory it is the fault entry. -/
theorem bcdStoresThreeDigits : Obligations.BcdStoresThreeDigits := by
  refine fun x s => ⟨decodeWord_encode (.ldB x), fun h hm => ?_, fun h => ?_⟩
  · have fits : s.I.toNat + (bcdDigits (s.getV x)).length ≤ 4096 := h
    have digit : ∀ k < 3, (s.writeBytes s.I.toNat (bcdDigits (s.getV x))).readByte (s.I.toNat + k) =
        (bcdDigits (s.getV x)).getD k 0 := s.readByte_writeBytes_add hm _ _ fits
    obtain ⟨hundreds, tens, units⟩ := bcdDigits_toNat (s.getV x)
    exact ⟨_, exec_ldB_of_lt x s h, (congrArg BitVec.toNat (digit 0 (by decide))).trans hundreds,
      (congrArg BitVec.toNat (digit 1 (by decide))).trans tens,
      (congrArg BitVec.toNat (digit 2 (by decide))).trans units,
      s.readByte_writeBytes_outside hm _ _ fits, congrArg (· + 2) (s.writeBytes_pc _ _),
      keeps_writeBytes_advance s _ _⟩
  · exact ⟨_, exec_ldB_of_ge x s h, raisesIn_raise s _ _ _⟩

/-- Settles O31: each is a write of I and the step past it, FX1E after a write of its overflow flag; the word written is
the zero-extended field, the masked sum or the glyph's address. -/
theorem indexIsSetSummedAndPointed : Obligations.IndexIsSetSummedAndPointed := by
  intro x nnn s
  have flag : (indexOverflowFlag s.I (s.getV x)).toNat = if s.I.toNat + (s.getV x).toNat > 0xFFF then 1 else 0 :=
    flagByte_toNat _
  exact ⟨decodeWord_encode (.ldI nnn), decodeWord_encode (.addI x), decodeWord_encode (.ldF x),
    ⟨_, rfl, zextAddr_toNat nnn, rfl, keeps_setI_advance s _⟩,
    ⟨_, rfl, maskIndex_toNat _, (congrArg BitVec.toNat (s.getV_setV_same vf _)).trans flag, rfl,
      keeps_setV_setI_advance s vf _ _⟩,
    fun h => ⟨_, rfl, glyphAddress_toNat s.config h _, rfl, keeps_setI_advance s _⟩⟩

end Sys2Proof
end

section
/-! What the proofs about the display share: the frame of a write of the display with the step past it
(R102, R180). -/
namespace Sys2Proof.Machine

/-- A write of the display with the step past it: its frame. -/
theorem keeps_setD_advance (s : State) (d : Display) : Keeps [] [.D, .pc] s (s.setD d).advance := by
  constructor <;> simp

end Sys2Proof.Machine
end

section
namespace Sys2Proof
open Machine

/-- Settles O37: CLS is a write of the clear display and the step past it. -/
theorem clsTurnsEveryPixelOff : Obligations.ClsTurnsEveryPixelOff :=
  ⟨decodeWord_encode .cls, fun s =>
    ⟨_, rfl, Display.pixel_clear, rfl, keeps_setD_advance s Display.clear⟩⟩

end Sys2Proof
end

section
/-! What construction leaves in memory: every byte is the initial one, inside the font the font's own (R40, R241). -/
namespace Sys2Proof.Machine

/-- Construction lists no byte, so each address reads as `initialByte` (R40, R241). -/
theorem State.readByte_construct (c : Config) (a : Nat) : (State.construct c).readByte a = initialByte c a :=
  Memory.read_unlisted c [] a (by simp)

/-- Inside the font the initial byte is the font's (R241). -/
theorem initialByte_fontBase_add (c : Config) (i : Nat) (hi : i < 80) :
    initialByte c (c.fontBase + i) = c.font.getD i 0 := by
  rw [initialByte, if_pos ⟨by omega, by omega⟩, Nat.add_sub_cancel_left]

end Sys2Proof.Machine
end

section
namespace Sys2Proof
open Machine

/-- Settles O15: memory right after construction reads as the initial bytes, which inside the font are the font's. -/
theorem constructionLoadsTheFont : Obligations.ConstructionLoadsTheFont :=
  ⟨fun c i _ hi => (State.readByte_construct c _).trans (initialByte_fontBase_add c i hi), rfl⟩

end Sys2Proof
end

section
/-! What the proofs about the decoder share: a word is rebuilt from its own fields class by class, and a word decodes
exactly when its record is legal, which is exactly when R80 does not list it. -/
namespace Sys2Proof

/-! ## From the instruction back to the word -/

/-- Class 0x0: the two words of R75. -/
theorem encode_of_decodeClass0 {f : Fields} {i : Instr} (h : decodeClass0 f = .ok i) :
    encode i = wordNNN 0x0 f.nnn := by
  unfold decodeClass0 at h
  split at h <;> cases h
  all_goals rw [‹f.nnn = _›]; rfl

/-- Class 0x8: `N` selects the instruction and is the low nibble of its word (R76). -/
theorem encode_of_decodeClass8 {f : Fields} {i : Instr} (h : decodeClass8 f = .ok i) :
    encode i = wordXYN 0x8 f.x f.y f.n := by
  unfold decodeClass8 at h
  split at h <;> cases h
  all_goals rw [‹f.n = _›]; rfl

/-- Class 0xE: `NN` selects the instruction and is the low byte of its word (R77). -/
theorem encode_of_decodeClassE {f : Fields} {i : Instr} (h : decodeClassE f = .ok i) :
    encode i = wordXNN 0xE f.x f.nn := by
  unfold decodeClassE at h
  split at h <;> cases h
  all_goals rw [‹f.nn = _›]; rfl

/-- Class 0xF: `NN` selects the instruction and is the low byte of its word (R78). -/
theorem encode_of_decodeClassF {f : Fields} {i : Instr} (h : decodeClassF f = .ok i) :
    encode i = wordXNN 0xF f.x f.nn := by
  unfold decodeClassF at h
  split at h <;> cases h
  all_goals rw [‹f.nn = _›]; rfl

/-- An accepted record is laid out by the encoder in one of the three layouts of R72, each of which rebuilds the word
the record was taken from. -/
theorem encode_of_decodeFields {f : Fields} {i : Instr} (h : decodeFields f = .ok i) :
    encode i = wordXYN f.op f.x f.y f.n ∨ encode i = wordXNN f.op f.x f.nn ∨ encode i = wordNNN f.op f.nnn := by
  unfold decodeFields at h
  split at h
  case h_1 hop => rw [hop]; exact .inr (.inr (encode_of_decodeClass0 h))
  case h_9 hop => rw [hop]; exact .inl (encode_of_decodeClass8 h)
  case h_15 hop => rw [hop]; exact .inr (.inl (encode_of_decodeClassE h))
  case h_16 =>
    rw [eq_classF f.op (by tauto)]
    exact .inr (.inl (encode_of_decodeClassF h))
  case h_6 hop | h_10 hop =>
    split at h <;> cases h
    rw [hop, ‹f.n = 0›]; exact .inl rfl
  case h_2 hop | h_3 hop | h_11 hop | h_12 hop => cases h; rw [hop]; exact .inr (.inr rfl)
  case h_4 hop | h_5 hop | h_7 hop | h_8 hop | h_13 hop => cases h; rw [hop]; exact .inr (.inl rfl)
  case h_14 hop => cases h; rw [hop]; exact .inl rfl

/-- The encoder inverts the decoder. -/
theorem encode_of_decodeWord {w : Word} {i : Instr} (h : decodeWord w = .ok i) : encode i = w := by
  rcases encode_of_decodeFields h with hxyn | hxnn | hnnn
  · exact hxyn.trans (wordXYN_fieldsOf w)
  · exact hxnn.trans (wordXNN_fieldsOf w)
  · exact hnnn.trans (wordNNN_fieldsOf w)

/-! ## The legal words -/

theorem decodeClass0_ok_iff (f : Fields) : (∃ i, decodeClass0 f = .ok i) ↔ f.nnn = 0x0E0 ∨ f.nnn = 0x0EE := by
  unfold decodeClass0
  split <;> simp_all

theorem decodeClass8_ok_iff (f : Fields) : (∃ i, decodeClass8 f = .ok i) ↔ legalSub8 f.n = true := by
  unfold decodeClass8
  split <;> simp_all [legalSub8]

theorem decodeClassE_ok_iff (f : Fields) : (∃ i, decodeClassE f = .ok i) ↔ legalLowE f.nn = true := by
  unfold decodeClassE
  split <;> simp_all [legalLowE]

theorem decodeClassF_ok_iff (f : Fields) : (∃ i, decodeClassF f = .ok i) ↔ legalLowF f.nn = true := by
  unfold decodeClassF
  split <;> simp_all [legalLowF]

/-- The decoder accepts exactly the legal records, class by class (R75 to R80). -/
theorem decodeFields_ok_iff (f : Fields) : (∃ i, decodeFields f = .ok i) ↔ f.legal = true := by
  unfold decodeFields Fields.legal
  split
  case h_1 hop => simp [hop, decodeClass0_ok_iff]
  case h_9 hop => simp [hop, decodeClass8_ok_iff]
  case h_15 hop => simp [hop, decodeClassE_ok_iff]
  case h_16 =>
    simp [decodeClassF_ok_iff, eq_classF f.op (by tauto)]
  case h_6 hop | h_10 hop => by_cases hn : f.n = 0#4 <;> simp [hop, hn]
  all_goals simp [*]

/-- A word of class 0x0 is known by its address field. -/
theorem eq_wordNNN_zero_iff (w : Word) (nnn : Addr12) (hop : (fieldsOf w).op = 0x0) :
    w = wordNNN 0x0 nnn ↔ (fieldsOf w).nnn = nnn := by
  constructor
  · rintro rfl; simp
  · rintro rfl; rw [← hop, wordNNN_fieldsOf]

/-- The sub-operations of class 0x8 that R76 does not name are those that R80 lists. -/
theorem legalSub8_iff (n : Nibble) :
    legalSub8 n = true ↔ n ∉ [0x8#4, 0x9#4, 0xA#4, 0xB#4, 0xC#4, 0xD#4, 0xF#4] := by
  revert n; decide

/-- The words that R80 lists as illegal. -/
def ListedIllegal (w : Word) : Prop :=
  let f := fieldsOf w
  (f.op = 0x0 ∧ w ≠ 0x00E0 ∧ w ≠ 0x00EE) ∨
  ((f.op = 0x5 ∨ f.op = 0x9) ∧ f.n ≠ 0) ∨
  (f.op = 0x8 ∧ f.n ∈ [0x8#4, 0x9#4, 0xA#4, 0xB#4, 0xC#4, 0xD#4, 0xF#4]) ∨
  (f.op = 0xE ∧ f.nn ∉ [0x9E#8, 0xA1#8]) ∨
  (f.op = 0xF ∧ f.nn ∉ [0x07#8, 0x0A#8, 0x15#8, 0x18#8, 0x1E#8, 0x29#8, 0x33#8, 0x55#8, 0x65#8])

/-- A record is legal exactly when R80 does not list its word. -/
theorem legal_iff_not_listedIllegal (w : Word) : (fieldsOf w).legal = true ↔ ¬ ListedIllegal w := by
  have cls := eq_wordNNN_zero_iff w 0x0E0
  have ret := eq_wordNNN_zero_iff w 0x0EE
  unfold Fields.legal ListedIllegal
  split
  case isTrue hop =>
    have hcls : w = 0x00E0 ↔ (fieldsOf w).nnn = 0x0E0 := cls hop
    have hret : w = 0x00EE ↔ (fieldsOf w).nnn = 0x0EE := ret hop
    simp [hop]; tauto
  case isFalse h0 =>
    split
    case isTrue h59 =>
      have : (fieldsOf w).op = 0x5 ∨ (fieldsOf w).op = 0x9 := by simpa using h59
      rcases this with hop | hop <;> simp [hop]
    case isFalse h59 =>
      split
      case isTrue hop => simp [hop, legalSub8_iff]
      case isFalse h8 =>
        split
        case isTrue hop => simp [hop, legalLowE, or_iff_not_imp_left]
        case isFalse hE =>
          split
          case isTrue hop => simp [hop, legalLowF, or_iff_not_imp_left]
          case isFalse hF => simp_all

/-- The words that decode are those that R80 does not list. -/
theorem decodeWord_ok_iff (w : Word) : (∃ i, decodeWord w = .ok i) ↔ ¬ ListedIllegal w :=
  (decodeFields_ok_iff (fieldsOf w)).trans (legal_iff_not_listedIllegal w)

end Sys2Proof
end

section
/-! The step of a running session: it is the core's step from the state that `stepsFrom` names, and a word R80 lists
makes it the fault entry. -/
namespace Sys2Proof.Machine

/-- With no fault, an operation that is a step is the core's step (R230, R237). -/
theorem step_of_stepsFrom {s u : State} (hf : s.FAULT = none) (h : s.stepsFrom u) : step s = u.coreStep := by
  rcases h with ⟨hs, rfl⟩ | ⟨l, hs, rfl⟩
  · exact step_of_nil _ hs
  · exact step_of_step s l hf hs

/-- A running step: the instruction step from the state `stepsFrom` names (R100). -/
theorem step_of_running {s u : State} (hf : s.FAULT = none) (hk : s.KW = .none) (h : s.stepsFrom u) :
    step s = u.runInstruction := by
  rw [step_of_stepsFrom hf h, s.stepsFrom_eq u h]
  exact State.coreStep_of_running _ hf hk

/-- A running step that fetches a word R80 lists records IllegalInstruction (R80, R213). -/
theorem step_of_listedIllegal {s u : State} {w : Word} (hf : s.FAULT = none) (hk : s.KW = .none)
    (h : s.stepsFrom u) (hw : s.fetch = .ok w) (hl : ListedIllegal w) :
    ∃ t r, step s = .next t ∧ t.FAULT = some r ∧ r.kind = .illegalInstruction := by
  cases hd : decodeWord w with
  | ok i => exact absurd hl ((decodeWord_ok_iff w).1 ⟨i, hd⟩)
  | error e =>
    have hu : u.fetch = .ok w := by rw [s.stepsFrom_eq u h]; exact hw
    exact ⟨_, _, (step_of_running hf hk h).trans (u.runInstruction_of_illegal w e hu hd), rfl, rfl⟩

end Sys2Proof.Machine
end

section
namespace Sys2Proof
open Machine

/-- Settles O2: the decoder inverts the encoder on words, and the two bytes of a word make that word again. -/
theorem decodeOfEncodeIsTheInstruction : Obligations.DecodeOfEncodeIsTheInstruction := by
  refine fun i rest => ⟨decodeWord_encode i, ?_⟩
  calc decodeBytes (encodeBytes i ++ rest)
      = (decodeWord (wordOfBytes (hiByte (encode i)) (loByte (encode i)))).map (·, rest) := rfl
    _ = .ok (i, rest) := by rw [wordOfBytes_bytes, decodeWord_encode]; rfl

/-- Settles O3: the encoder inverts the decoder, class by class. -/
theorem encodeOfDecodeIsTheWord : Obligations.EncodeOfDecodeIsTheWord :=
  fun _ _ h => encode_of_decodeWord h

/-- Settles O4: decoder and legality both agree with R80's list, and the step that fetches a listed word is the fault
entry. -/
theorem listedWordsAreExactlyTheIllegalOnes : Obligations.ListedWordsAreExactlyTheIllegalOnes :=
  fun w => ⟨decodeWord_ok_iff w, legal_iff_not_listedIllegal w,
    fun _ _ hf hk hsu hw hl => step_of_listedIllegal hf hk hsu hw hl⟩

end Sys2Proof
end

section
/-! What one instruction can do, said once over all 34: it raises its one error and does nothing else, or it completes
within its frame. The facts about what every step keeps are read off from this. -/
namespace Sys2Proof.Machine

/-! ## The frame and the error of each instruction -/

/-- The parts of a transfer between registers and memory: I is among them only when it advances (R166). -/
def transferParts (c : Config) (ps : List Part) : List Part := if c.loadStoreIndex = .advance then .I :: ps else ps

theorem mem_transferParts {c : Config} {ps : List Part} {p : Part} :
    p ∈ transferParts c ps ↔ p ∈ ps ∨ p = .I ∧ c.loadStoreIndex = .advance := by
  unfold transferParts
  split <;> simp [*, or_comm]

/-- The parts of the state an instruction may write, the general registers apart (10_state.md, 20_memory.md). -/
def writtenParts (c : Config) : Instr → List Part
  | .cls | .drw _ _ _ => [.D, .pc]
  | .ret | .call _ => [.pc, .stack]
  | .ldI _ | .addI _ | .ldF _ => [.I, .pc]
  | .rnd _ _ => [.pc, .draws]
  | .ldVxK _ => [.KW]
  | .ldDtVx _ => [.DT, .pc]
  | .ldStVx _ => [.ST, .pc]
  | .ldB _ => [.MEM, .pc]
  | .storeRegs _ => transferParts c [.MEM, .pc]
  | .loadRegs _ => transferParts c [.pc]
  | _ => [.pc]

/-- The one kind of error an instruction can raise (R214). -/
def errorOf : Instr → Option Fault
  | .ret => some .stackUnderflow
  | .call _ => some .stackOverflow
  | .drw _ _ _ | .skp _ | .sknp _ | .ldB _ | .storeRegs _ | .loadRegs _ => some .memoryOutOfBounds
  | _ => none

/-- How far an instruction that is no jump moves pc (R102, R103, R194). -/
def pcSteps : Instr → List Word
  | .seImm _ _ | .sneImm _ _ | .seReg _ _ | .sneReg _ _ | .skp _ | .sknp _ => [2, 4]
  | .ldVxK _ => [0]
  | _ => [2]

/-- The instruction ends in its error: the fault entry with its own word, and an address exactly for
MemoryOutOfBounds (R213). -/
def RaisesOwnError (i : Instr) (s t : State) : Prop :=
  ∃ k a, errorOf i = some k ∧ (a.isSome = true ↔ k = .memoryOutOfBounds) ∧ t = s.raise k (some (encode i)) a

/-- The instruction completes: it writes within its frame, memory's list of cells only where the frame has memory, and
moves pc by one of its steps unless it is a jump. -/
structure Completes (i : Instr) (s t : State) : Prop where
  frame : Keeps (writes i) (writtenParts s.config i) s t
  cells : Part.MEM ∉ writtenParts s.config i → t.MEM = s.MEM
  pc    : isJump i = false → ∃ d ∈ pcSteps i, t.pc = s.pc + d

/-! ## Frames -/

/-- A frame may be widened. -/
theorem Keeps.mono {rs rs' : List Reg} {ps ps' : List Part} {s t : State} (h : Keeps rs ps s t) (hr : rs ⊆ rs')
    (hp : ps ⊆ ps') : Keeps rs' ps' s t where
  regs r hn     := h.regs r (mt (@hr r) hn)
  index hn      := h.index (mt (@hp _) hn)
  pc hn         := h.pc (mt (@hp _) hn)
  depth hn      := h.depth (mt (@hp _) hn)
  stack hn      := h.stack (mt (@hp _) hn)
  delay hn      := h.delay (mt (@hp _) hn)
  sound hn      := h.sound (mt (@hp _) hn)
  memory hn     := h.memory (mt (@hp _) hn)
  display hn    := h.display (mt (@hp _) hn)
  keyWait hn    := h.keyWait (mt (@hp _) hn)
  fault hn      := h.fault (mt (@hp _) hn)
  draws hn      := h.draws (mt (@hp _) hn)
  keys          := h.keys
  config        := h.config
  schedule      := h.schedule

/-- The frame of a transfer: when I does not advance, what is written to it is what it held (R166). -/
theorem Keeps.transferParts {rs : List Reg} {ps : List Part} {s t : State} (h : Keeps rs (.I :: ps) s t) (x : Reg)
    (hI : t.I = s.indexAfterTransfer x) : Keeps rs (transferParts s.config ps) s t := by
  unfold Machine.transferParts
  split
  case isTrue => exact h
  case isFalse hna =>
    have kept : t.I = s.I := BitVec.eq_of_toNat_eq (by rw [hI, s.indexAfterTransfer_toNat, if_neg hna])
    have other {p : Part} (hp : p ≠ .I) (hn : p ∉ ps) : p ∉ .I :: ps := List.not_mem_cons_of_ne_of_not_mem hp hn
    exact
      { h with
        index := fun _ => kept
        pc := h.pc ∘ other (by decide)
        depth := h.depth ∘ other (by decide)
        stack := h.stack ∘ other (by decide)
        delay := h.delay ∘ other (by decide)
        sound := h.sound ∘ other (by decide)
        memory := h.memory ∘ other (by decide)
        display := h.display ∘ other (by decide)
        keyWait := h.keyWait ∘ other (by decide)
        fault := h.fault ∘ other (by decide)
        draws := h.draws ∘ other (by decide) }

/-- A drawn byte written to a register with the step past it: its frame (R145). -/
theorem keeps_setV_countDraw_advance (s : State) (x : Reg) (b : Byte) :
    Keeps [x] [.pc, .draws] s ((s.setV x b).countDraw).advance := by
  have written : Keeps [x] [.pc, .draws] s (s.setV x b).advance :=
    (keeps_setV_advance s x b).mono (List.Subset.refl _) (by simp)
  exact { written with draws := by simp }

/-- A write of the key-wait: its frame (R194). -/
theorem keeps_setKW (s : State) (k : KeyWait) : Keeps [] [.KW] s (s.setKW k) := by
  constructor <;> simp

/-- A write of the delay timer with the step past it: its frame (R198). -/
theorem keeps_setDT_advance (s : State) (b : Byte) : Keeps [] [.DT, .pc] s (s.setDT b).advance := by
  constructor <;> simp

/-- A write of the sound timer with the step past it: its frame (R199). -/
theorem keeps_setST_advance (s : State) (b : Byte) : Keeps [] [.ST, .pc] s (s.setST b).advance := by
  constructor <;> simp

/-- A write of the display and of VF with the step past them: their frame (R181). -/
theorem keeps_setD_setV_advance (s : State) (d : Display) (r : Reg) (b : Byte) :
    Keeps [r] [.D, .pc] s ((s.setD d).setV r b).advance := by
  have other : ∀ q, q ∉ [r] → ((s.setD d).setV r b).advance.getV q = s.getV q := fun q hq => by
    rw [State.advance_getV, State.getV_setV_ne _ r q b (List.ne_of_not_mem_cons hq), State.setD_getV]
  constructor
  case regs => exact other
  all_goals simp

/-- A stored block and a write of I with the step past them: their frame (R164). -/
theorem keeps_writeBytes_setI_advance (s : State) (a : Nat) (bs : List Byte) (v : Word) :
    Keeps [] [.I, .MEM, .pc] s ((s.writeBytes a bs).setI v).advance := by
  constructor <;> simp

theorem mem_regsThrough (x q : Reg) : q ∈ regsThrough x ↔ q ≤ x := by
  simp [regsThrough]

/-- A block of registers loaded from memory and a write of I with the step past them: their frame (R165). -/
theorem keeps_fillFromV0_setI_advance (s : State) (x : Reg) (bs : List Byte) (hlen : bs.length = x.val + 1)
    (v : Word) : Keeps (regsThrough x) [.I, .pc] s ((s.fillFromV0 bs).setI v).advance := by
  have other : ∀ q, q ∉ regsThrough x → ((s.fillFromV0 bs).setI v).advance.getV q = s.getV q := fun q hq => by
    have above : ¬ q.val < bs.length := by
      rw [mem_regsThrough, not_le, Fin.lt_def] at hq
      omega
    rw [State.advance_getV, State.setI_getV, State.getV_fillFromV0, if_neg above]
  constructor
  case regs => exact other
  all_goals simp

/-! ## The guarded instructions -/

/-- Everything an instruction can do that checks its addresses first (R68). -/
theorem guarded_cases {i : Instr} {s body : State} {n : Nat}
    (hexec : exec i s = .next (s.guardRange (encode i) s.I.toNat n body))
    (herr : errorOf i = some .memoryOutOfBounds) (hbody : Completes i s body) :
    ∃ t, exec i s = .next t ∧ (RaisesOwnError i s t ∨ Completes i s t) := by
  rcases s.guardRange_cases (encode i) s.I.toNat n body with ⟨-, hin⟩ | ⟨-, hout⟩
  · exact ⟨body, hin ▸ hexec, .inr hbody⟩
  · exact ⟨_, hexec, .inl ⟨_, _, herr, by simp, hout⟩⟩

/-- A key skip on a register that names a key (R190). -/
theorem State.skipOnKey_of_le (s : State) (w : Word) (v : Byte) (pressed : Bool) (h : v.toNat ≤ 0xF) :
    s.skipOnKey w v pressed = s.skipIf (s.K.getLsbD v.toNat == pressed) := by
  have key : keyIndex v = some ⟨v.toNat, by omega⟩ := (keyIndex_eq_some v _).2 rfl
  rw [State.skipOnKey, key]; rfl

/-- A key skip on a register above 0xF is the fault entry (R190). -/
theorem State.skipOnKey_of_gt (s : State) (w : Word) (v : Byte) (pressed : Bool) (h : 0xF < v.toNat) :
    s.skipOnKey w v pressed = s.raise .memoryOutOfBounds (some w) (some v.toNat) := by
  rw [State.skipOnKey, (keyIndex_eq_none v).2 h]

/-! ## Completing -/

/-- An instruction that leaves memory alone and moves pc by 2. -/
theorem completes_advance {i : Instr} {s t : State} (frame : Keeps (writes i) (writtenParts s.config i) s t)
    (cells : t.MEM = s.MEM) (steps : 2 ∈ pcSteps i) (pc : t.pc = s.pc + 2) : Completes i s t :=
  ⟨frame, fun _ => cells, fun _ => ⟨2, steps, pc⟩⟩

/-- A skip. -/
theorem completes_skip {i : Instr} {s : State} (regs : writes i = []) (parts : writtenParts s.config i = [.pc])
    (steps : pcSteps i = [2, 4]) (b : Bool) : Completes i s (s.skipIf b) where
  frame := by rw [regs, parts]; exact keeps_setPc s _
  cells _ := rfl
  pc _ := by rw [steps]; cases b <;> simp

/-- A jump. -/
theorem completes_jump {i : Instr} {s t : State} (jump : isJump i = true)
    (frame : Keeps (writes i) (writtenParts s.config i) s t) (cells : t.MEM = s.MEM) : Completes i s t :=
  ⟨frame, fun _ => cells, fun h => absurd (jump.symm.trans h) (by decide)⟩

/-- A key skip either raises or skips. -/
theorem keySkip_cases {i : Instr} {s : State} {v : Byte} {pressed : Bool}
    (hexec : exec i s = .next (s.skipOnKey (encode i) v pressed)) (herr : errorOf i = some .memoryOutOfBounds)
    (hskip : ∀ b, Completes i s (s.skipIf b)) :
    ∃ t, exec i s = .next t ∧ (RaisesOwnError i s t ∨ Completes i s t) := by
  rcases Nat.lt_or_ge 0xF v.toNat with h | h
  · exact ⟨_, hexec, .inl ⟨_, _, herr, by simp, s.skipOnKey_of_gt _ v pressed h⟩⟩
  · exact ⟨_, hexec, .inr (s.skipOnKey_of_le (encode i) v pressed h ▸ hskip _)⟩

/-- An ALU instruction with a flag. -/
theorem completes_writeFlagResult {i : Instr} {s : State} {x : Reg} (regs : writes i = [x, vf])
    (parts : writtenParts s.config i = [.pc]) (steps : pcSteps i = [2]) (f r : Byte) :
    Completes i s (s.writeFlagResult x f r).advance :=
  completes_advance (by rw [regs, parts]; exact keeps_writeFlagResult s x f r)
    (by rw [s.writeFlagResult_eq]; rfl) (by simp [steps]) (writeFlagResult_advance_pc s x f r)

/-- EVERYTHING AN INSTRUCTION CAN DO: it answers a next state, in which either its own error is recorded and nothing
else has changed, or it has completed. -/
theorem exec_cases (i : Instr) (s : State) :
    ∃ t, exec i s = .next t ∧ (RaisesOwnError i s t ∨ Completes i s t) := by
  cases i with
  | cls => exact ⟨_, rfl, .inr (completes_advance (keeps_setD_advance s _) rfl (.head _) rfl)⟩
  | ret =>
    rcases Nat.eq_zero_or_pos s.SP.val with h | h
    · exact ⟨_, exec_ret_of_empty s (Fin.ext h), .inl ⟨_, _, rfl, by simp, rfl⟩⟩
    · exact ⟨_, exec_ret_of_pos s h, .inr (completes_jump rfl (keeps_stack_setPc s s.S _ _) rfl)⟩
  | call nnn =>
    by_cases h : s.SP.val < 16
    · exact ⟨_, exec_call_of_lt nnn s h, .inr (completes_jump rfl (keeps_stack_setPc s _ _ _) rfl)⟩
    · exact ⟨_, exec_call_of_full nnn s (Fin.ext (by omega)), .inl ⟨_, _, rfl, by simp, rfl⟩⟩
  | jp | jpV0 => exact ⟨_, rfl, .inr (completes_jump rfl (keeps_setPc s _) rfl)⟩
  | seImm | sneImm | seReg | sneReg => exact ⟨_, rfl, .inr (completes_skip rfl rfl rfl _)⟩
  | skp x | sknp x => exact keySkip_cases rfl rfl (completes_skip rfl rfl rfl)
  | ldImm x | addImm x | ldReg x | orReg x | andReg x | xorReg x | ldVxDt x =>
    exact ⟨_, rfl, .inr (completes_advance (keeps_setV_advance s x _) rfl (.head _) rfl)⟩
  | addReg x | subReg x | shr x | subnReg x | shl x =>
    exact ⟨_, rfl, .inr (completes_writeFlagResult rfl rfl rfl _ _)⟩
  | rnd x => exact ⟨_, rfl, .inr (completes_advance (keeps_setV_countDraw_advance s x _) rfl (.head _) rfl)⟩
  | ldI | ldF => exact ⟨_, rfl, .inr (completes_advance (keeps_setI_advance s _) rfl (.head _) rfl)⟩
  | addI => exact ⟨_, rfl, .inr (completes_advance (keeps_setV_setI_advance s vf _ _) rfl (.head _) rfl)⟩
  | ldDtVx => exact ⟨_, rfl, .inr (completes_advance (keeps_setDT_advance s _) rfl (.head _) rfl)⟩
  | ldStVx => exact ⟨_, rfl, .inr (completes_advance (keeps_setST_advance s _) rfl (.head _) rfl)⟩
  | ldVxK x =>
    have frame := (keeps_setKW s (.waiting x s.K)).mono (List.nil_subset [x]) (List.Subset.refl _)
    exact ⟨_, rfl, .inr ⟨frame, fun _ => rfl, fun _ => ⟨0, .head _, (BitVec.add_zero s.pc).symm⟩⟩⟩
  | drw => exact guarded_cases rfl rfl (completes_advance (keeps_setD_setV_advance s _ vf _) rfl (.head _) rfl)
  | ldB =>
    exact guarded_cases rfl rfl
      ⟨keeps_writeBytes_advance s _ _, fun h => absurd (.head _) h, fun _ => ⟨2, .head _, by simp⟩⟩
  | storeRegs x =>
    exact guarded_cases rfl rfl
      ⟨(keeps_writeBytes_setI_advance s _ _ _).transferParts x rfl,
        fun h => absurd (mem_transferParts.2 (.inl (.head _))) h, fun _ => ⟨2, .head _, by simp⟩⟩
  | loadRegs x =>
    exact guarded_cases rfl rfl
      (completes_advance ((keeps_fillFromV0_setI_advance s x _ (s.readBytes_length _ _) _).transferParts x rfl) rfl
        (.head _) rfl)

/-- What a given answer of an instruction is. -/
theorem exec_next_cases {i : Instr} {s t : State} (h : exec i s = .next t) :
    RaisesOwnError i s t ∨ Completes i s t := by
  obtain ⟨t', h', hcases⟩ := exec_cases i s
  obtain rfl := Host.Outcome.next.inj (h.symm.trans h')
  exact hcases

/-! ## The frame of any answer -/

/-- Whether it completes or raises, an instruction writes within its registers, its parts and FAULT. -/
theorem exec_keeps {i : Instr} {s t : State} (h : exec i s = .next t) :
    Keeps (writes i) (.FAULT :: writtenParts s.config i) s t := by
  rcases exec_next_cases h with ⟨k, a, -, -, rfl⟩ | hc
  · exact (raisesIn_raise s k _ a).2.mono (List.nil_subset _) (by simp)
  · exact hc.frame.mono (List.Subset.refl _) (List.subset_cons_self _ _)

/-- Whether it completes or raises, an instruction whose parts leave memory out leaves the list of cells as it is. -/
theorem exec_cells {i : Instr} {s t : State} (h : exec i s = .next t)
    (hp : Part.MEM ∉ Part.FAULT :: writtenParts s.config i) : t.MEM = s.MEM := by
  rcases exec_next_cases h with ⟨_, _, -, -, rfl⟩ | hc
  · rfl
  · exact hc.cells fun hm => hp (List.mem_cons_of_mem _ hm)

/-! ## Who writes what -/

section
variable {i : Instr} {c : Config}

/-- D is written by CLS and DRW (R32). -/
theorem display_writers (h : Part.D ∈ Part.FAULT :: writtenParts c i) : i = .cls ∨ ∃ x y n, i = .drw x y n := by
  cases i with
  | cls => exact .inl rfl
  | drw x y n => exact .inr ⟨x, y, n, rfl⟩
  | _ => simp [writtenParts, mem_transferParts] at h

/-- The stack is written by RET and CALL (R28). -/
theorem stack_writers (h : Part.stack ∈ Part.FAULT :: writtenParts c i) : i = .ret ∨ ∃ nnn, i = .call nnn := by
  cases i with
  | ret => exact .inl rfl
  | call nnn => exact .inr ⟨nnn, rfl⟩
  | _ => simp [writtenParts, mem_transferParts] at h

/-- I is written by ANNN, FX1E and FX29, and by FX55 and FX65 when it advances (R24). -/
theorem index_writers (h : Part.I ∈ Part.FAULT :: writtenParts c i) :
    (∃ nnn, i = .ldI nnn) ∨ (∃ x, i = .addI x ∨ i = .ldF x) ∨
      (c.loadStoreIndex = .advance ∧ ∃ x, i = .storeRegs x ∨ i = .loadRegs x) := by
  cases i with
  | ldI nnn => exact .inl ⟨nnn, rfl⟩
  | addI x => exact .inr (.inl ⟨x, .inl rfl⟩)
  | ldF x => exact .inr (.inl ⟨x, .inr rfl⟩)
  | storeRegs x =>
    have advances : c.loadStoreIndex = .advance := by simpa [writtenParts, mem_transferParts] using h
    exact .inr (.inr ⟨advances, x, .inl rfl⟩)
  | loadRegs x =>
    have advances : c.loadStoreIndex = .advance := by simpa [writtenParts, mem_transferParts] using h
    exact .inr (.inr ⟨advances, x, .inr rfl⟩)
  | _ => simp [writtenParts] at h

/-- DT is written by FX15 (R30). -/
theorem delay_writers (h : Part.DT ∈ Part.FAULT :: writtenParts c i) : ∃ x, i = .ldDtVx x := by
  cases i with
  | ldDtVx x => exact ⟨x, rfl⟩
  | _ => simp [writtenParts, mem_transferParts] at h

/-- ST is written by FX18 (R31). -/
theorem sound_writers (h : Part.ST ∈ Part.FAULT :: writtenParts c i) : ∃ x, i = .ldStVx x := by
  cases i with
  | ldStVx x => exact ⟨x, rfl⟩
  | _ => simp [writtenParts, mem_transferParts] at h

/-- KW is written by FX0A (R35). -/
theorem keyWait_writers (h : Part.KW ∈ Part.FAULT :: writtenParts c i) : ∃ x, i = .ldVxK x := by
  cases i with
  | ldVxK x => exact ⟨x, rfl⟩
  | _ => simp [writtenParts, mem_transferParts] at h

/-- MEM is written by FX33 and FX55 (R57). -/
theorem memory_writers (h : Part.MEM ∈ Part.FAULT :: writtenParts c i) :
    (∃ x, i = .ldB x) ∨ ∃ x, i = .storeRegs x := by
  cases i with
  | ldB x => exact .inl ⟨x, rfl⟩
  | storeRegs x => exact .inr ⟨x, rfl⟩
  | _ => simp [writtenParts, mem_transferParts] at h

end

end Sys2Proof.Machine
end

section
/-! What every instruction and every operation keeps: the configuration, the bounds of I, pc and the return addresses,
the canonical form of memory, and the place of a pending key-wait. -/
namespace Sys2Proof.Machine

/-! ## What an instruction keeps -/

/-- A property of every checked access: the fault entry has it, and so does the body when the range is in memory. -/
theorem State.guardRange_induction {motive : State → Prop} {s body : State} {w : Word} {base n : Nat}
    (raised : motive (s.raise .memoryOutOfBounds (some w) (some (max base 4096))))
    (passed : n = 0 ∨ base + n ≤ 4096 → motive body) : motive (s.guardRange w base n body) := by
  rcases s.guardRange_cases w base n body with ⟨hin, h⟩ | ⟨-, h⟩ <;> rw [h]
  · exact passed hin
  · exact raised

/-- Every instruction keeps memory canonical: the two that write it write inside it (R68). -/
theorem exec_memory_wf {i : Instr} {s t : State} (h : exec i s = .next t) (hm : Memory.wf s.config s.MEM) :
    Memory.wf s.config t.MEM := by
  by_cases hp : Part.MEM ∈ Part.FAULT :: writtenParts s.config i
  · rcases memory_writers hp with ⟨x, rfl⟩ | ⟨x, rfl⟩
    · cases h
      exact State.guardRange_induction (motive := fun t => Memory.wf s.config t.MEM) hm
        fun hin => s.wf_writeBytes hm _ _ (hin.resolve_left (by decide))
    · cases h
      exact State.guardRange_induction (motive := fun t => Memory.wf s.config t.MEM) hm
        fun hin => s.wf_writeBytes hm _ _ (by rw [s.regsUpTo_length]; exact hin.resolve_left (by omega))
  · rw [exec_cells h hp]; exact hm

theorem State.indexAfterTransfer_le (s : State) (x : Reg) (h : s.I.toNat ≤ 0xFFF) :
    (s.indexAfterTransfer x).toNat ≤ 0xFFF := by
  rw [s.indexAfterTransfer_toNat]
  split <;> omega

/-- Every instruction keeps `I <= 0xFFF` (R25). -/
theorem exec_index_le {i : Instr} {s t : State} (h : exec i s = .next t) (hc : s.config.wf)
    (hI : s.I.toNat ≤ 0xFFF) : t.I.toNat ≤ 0xFFF := by
  have transferred (x : Reg) (w : Word) (n : Nat) (u : State) :
      (s.guardRange w s.I.toNat n (u.setI (s.indexAfterTransfer x)).advance).I.toNat ≤ 0xFFF :=
    State.guardRange_induction (motive := fun t => t.I.toNat ≤ 0xFFF) hI fun _ => s.indexAfterTransfer_le x hI
  by_cases hp : Part.I ∈ Part.FAULT :: writtenParts s.config i
  · rcases index_writers hp with ⟨nnn, rfl⟩ | ⟨x, rfl | rfl⟩ | ⟨-, x, rfl | rfl⟩ <;> cases h
    · simp; omega
    · simp; omega
    · have address := glyphAddress_toNat s.config (by omega) (s.getV x)
      simp only [State.advance_I, State.setI_I]
      omega
    · exact transferred x _ _ _
    · exact transferred x _ _ _
  · rw [(exec_keeps h).index hp]; exact hI

theorem pcSteps_le {i : Instr} {d : Word} (h : d ∈ pcSteps i) : d.toNat ≤ 4 := by
  have h024 : d = 0 ∨ d = 2 ∨ d = 4 := by
    unfold pcSteps at h
    split at h <;> simp only [List.mem_cons, List.not_mem_nil, or_false] at h <;> tauto
  rcases h024 with rfl | rfl | rfl <;> decide

/-- Everything RET can do (R105). -/
theorem exec_ret_cases {s t : State} (h : exec .ret s = .next t) :
    t = s.raise .stackUnderflow (some (encode .ret)) none ∨
    ∃ hs : 0 < s.SP.val, t = { s with SP := ⟨s.SP.val - 1, by omega⟩ }.setPc (s.S[s.SP.val - 1]'(by omega)) := by
  rcases Nat.eq_zero_or_pos s.SP.val with hs | hs
  · exact .inl (Host.Outcome.next.inj (h.symm.trans (exec_ret_of_empty s (Fin.ext hs))))
  · exact .inr ⟨hs, Host.Outcome.next.inj (h.symm.trans (exec_ret_of_pos s hs))⟩

/-- Everything CALL can do (R107). -/
theorem exec_call_cases {nnn : Addr12} {s t : State} (h : exec (.call nnn) s = .next t) :
    t = s.raise .stackOverflow (some (encode (.call nnn))) none ∨
    ∃ hs : s.SP.val < 16,
      t = { s with S := s.S.set s.SP.val (s.pc + 2), SP := ⟨s.SP.val + 1, by omega⟩ }.setPc (zextAddr nnn) := by
  by_cases hs : s.SP.val < 16
  · exact .inr ⟨hs, Host.Outcome.next.inj (h.symm.trans (exec_call_of_lt nnn s hs))⟩
  · exact .inl (Host.Outcome.next.inj (h.symm.trans (exec_call_of_full nnn s (Fin.ext (by omega)))))

/-- The largest pc an instruction can leave is that of BNNN, 0xFFF + 0xFF (R27). -/
theorem exec_pc_le {i : Instr} {s t : State} (h : exec i s = .next t) (hpc : s.pc.toNat + 1 < 4096)
    (hS : ∀ k : Fin 16, k.val < s.SP.val → (s.S[k.val]).toNat ≤ 0x1000) : t.pc.toNat ≤ 0x10FE := by
  rcases exec_next_cases h with ⟨_, _, -, -, rfl⟩ | hc
  · show s.pc.toNat ≤ 0x10FE; omega
  cases hj : isJump i with
  | false =>
    obtain ⟨d, hd, hpc'⟩ := hc.pc hj
    have short := pcSteps_le hd
    rw [hpc', BitVec.toNat_add]
    omega
  | true =>
    cases i with
    | ret =>
      rcases exec_ret_cases h with rfl | ⟨hs, rfl⟩
      · show s.pc.toNat ≤ 0x10FE; omega
      · exact (hS ⟨s.SP.val - 1, by omega⟩ (Nat.sub_lt hs Nat.one_pos)).trans (by decide)
    | jp nnn => cases h; simp; omega
    | call nnn =>
      rcases exec_call_cases h with rfl | ⟨-, rfl⟩
      · show s.pc.toNat ≤ 0x10FE; omega
      · simp; omega
    | jpV0 nnn => cases h; simp; omega
    | _ => simp [isJump] at hj

/-- Every instruction keeps the bound of the live return addresses: a CALL at 0xFFE pushes 0x1000 (R107). -/
theorem exec_stack_le {i : Instr} {s t : State} (h : exec i s = .next t) (hpc : s.pc.toNat + 1 < 4096)
    (hS : ∀ k : Fin 16, k.val < s.SP.val → (s.S[k.val]).toNat ≤ 0x1000) :
    ∀ k : Fin 16, k.val < t.SP.val → (t.S[k.val]).toNat ≤ 0x1000 := by
  by_cases hp : Part.stack ∈ Part.FAULT :: writtenParts s.config i
  · rcases stack_writers hp with rfl | ⟨nnn, rfl⟩
    · rcases exec_ret_cases h with rfl | ⟨hs, rfl⟩
      · exact hS
      · exact fun k hk => hS k (Nat.lt_of_lt_of_le hk (Nat.sub_le _ _))
    · rcases exec_call_cases h with rfl | ⟨hs, rfl⟩
      · exact hS
      · intro k hk
        by_cases htop : k.val = s.SP.val
        · have pushed : (s.pc + 2).toNat ≤ 0x1000 := by rw [BitVec.toNat_add]; simp; omega
          simpa [htop] using pushed
        · have below : k.val < s.SP.val := Nat.lt_of_le_of_ne (Nat.le_of_lt_succ hk) htop
          simpa [Ne.symm htop] using hS k below
  · intro k hk
    rw [(exec_keeps h).stack hp]
    exact hS k ((exec_keeps h).depth hp ▸ hk)

/-- FX0A alone writes the key-wait, and nothing else: it then stands at itself (R35, R194). -/
theorem exec_wait {i : Instr} {s t : State} (h : exec i s = .next t) (hk : s.KW = .none)
    (hf : s.fetch = .ok (encode i)) (dst : Reg) (prev : Word) (hw : t.KW = .waiting dst prev) :
    t.fetch = .ok (encode (.ldVxK dst)) := by
  by_cases hp : Part.KW ∈ Part.FAULT :: writtenParts s.config i
  · obtain ⟨x, rfl⟩ := keyWait_writers hp
    cases h
    obtain ⟨rfl, -⟩ := KeyWait.waiting.inj hw
    exact hf
  · exact absurd (hk.symm.trans (((exec_keeps h).keyWait hp).symm.trans hw)) (by simp)

/-! ## What a step keeps -/

/-- An instruction fetched at pc keeps the invariant. -/
theorem SessionInv.exec {i : Instr} {s t : State} (inv : SessionInv s) (hk : s.KW = .none)
    (hf : s.fetch = .ok (encode i)) (h : exec i s = .next t) : SessionInv t :=
  have hpc : s.pc.toNat + 1 < 4096 := ((s.fetch_eq_ok _).1 hf).1
  { config := (exec_keeps h).config ▸ inv.config
    memory := (exec_keeps h).config ▸ exec_memory_wf h inv.memory
    index  := exec_index_le h inv.config inv.index
    pc     := exec_pc_le h hpc inv.stack
    stack  := exec_stack_le h hpc inv.stack
    wait   := exec_wait h hk hf }

/-- The invariant speaks of neither FAULT, K, the timers nor the schedule. -/
theorem SessionInv.raise {s : State} (inv : SessionInv s) (k : Fault) (w : Option Word) (a : Option Nat) :
    SessionInv (s.raise k w a) :=
  ⟨inv.config, inv.memory, inv.index, inv.pc, inv.stack, inv.wait⟩

theorem SessionInv.setSchedule {s : State} (inv : SessionInv s) (l : List HostOp) : SessionInv (s.setSchedule l) :=
  ⟨inv.config, inv.memory, inv.index, inv.pc, inv.stack, inv.wait⟩

theorem SessionInv.setKeys {s : State} (inv : SessionInv s) (m : Word) : SessionInv (s.setKeys m) :=
  ⟨inv.config, inv.memory, inv.index, inv.pc, inv.stack, inv.wait⟩

/-- A tick of a running session (R222). -/
theorem State.tick_of_running (s : State) (hf : s.FAULT = none) :
    s.tick = (s.setDT (countDown s.DT)).setST (countDown s.ST) := by
  simp [State.tick, hf]

/-- A tick of a session that has ended (R217, R222). -/
theorem State.tick_of_fault (s : State) (hf : s.FAULT ≠ none) : s.tick = s := by
  simp [State.tick, Option.isSome_iff_ne_none.2 hf]

theorem SessionInv.tick {s : State} (inv : SessionInv s) : SessionInv s.tick := by
  by_cases hf : s.FAULT = none
  · rw [s.tick_of_running hf]
    exact ⟨inv.config, inv.memory, inv.index, inv.pc, inv.stack, inv.wait⟩
  · rwa [s.tick_of_fault hf]

/-- A poll keeps the invariant: pc stands at an FX0A, so both of its bytes are in memory and pc + 2 is in bounds. -/
theorem SessionInv.poll {s : State} (inv : SessionInv s) {dst : Reg} {prev : Word} (hk : s.KW = .waiting dst prev) :
    SessionInv (s.poll dst prev) := by
  have here := inv.wait dst prev hk
  have hpc : s.pc.toNat + 1 < 4096 := ((s.fetch_eq_ok _).1 here).1
  rcases s.poll_cases dst prev with ⟨-, h⟩ | ⟨k, -, -, -, h⟩ <;> rw [h]
  · refine ⟨inv.config, inv.memory, inv.index, inv.pc, inv.stack, fun d p hw => ?_⟩
    obtain ⟨rfl, -⟩ := KeyWait.waiting.inj hw
    exact here
  · refine ⟨inv.config, inv.memory, inv.index, ?_, inv.stack, fun d p hw => nomatch hw⟩
    simp [BitVec.toNat_add]; omega

/-- Everything the core's step can be (R100). -/
theorem State.coreStep_cases (s : State) :
    (s.FAULT ≠ none ∧ s.coreStep = .next s) ∨
    (s.FAULT = none ∧
      ((∃ dst prev, s.KW = .waiting dst prev ∧ s.coreStep = .next (s.poll dst prev)) ∨
       (s.KW = .none ∧ s.coreStep = s.runInstruction))) := by
  by_cases hf : s.FAULT = none
  · refine .inr ⟨hf, ?_⟩
    cases hk : s.KW with
    | waiting dst prev => exact .inl ⟨dst, prev, rfl, s.coreStep_of_waiting dst prev hf hk⟩
    | none => exact .inr ⟨rfl, s.coreStep_of_running hf hk⟩
  · exact .inl ⟨hf, by simp [State.coreStep, Option.isSome_iff_ne_none.2 hf]⟩

/-- What a given answer of an instruction step is: a failed fetch, an illegal word, or the instruction whose word was
fetched (R100). -/
theorem State.runInstruction_next_cases {s t : State} (h : s.runInstruction = .next t) :
    (∃ a, s.fetch = .error a ∧ t = s.raise .memoryOutOfBounds none (some a)) ∨
    (∃ w, s.fetch = .ok w ∧ t = s.raise .illegalInstruction (some w) none) ∨
    ∃ i, s.fetch = .ok (encode i) ∧ exec i s = .next t := by
  rcases s.runInstruction_cases with ⟨a, hf, hr⟩ | ⟨w, _, hf, -, hr⟩ | ⟨w, i, hf, hd, hr⟩ <;> rw [h] at hr
  · exact .inl ⟨a, hf, Host.Outcome.next.inj hr⟩
  · exact .inr (.inl ⟨w, hf, Host.Outcome.next.inj hr⟩)
  · exact .inr (.inr ⟨i, by rw [encode_of_decodeWord hd]; exact hf, hr.symm⟩)

/-- The core's step keeps the invariant. -/
theorem SessionInv.coreStep {s t : State} (inv : SessionInv s) (h : s.coreStep = .next t) : SessionInv t := by
  rcases s.coreStep_cases with ⟨-, hs⟩ | ⟨-, ⟨dst, prev, hk, hs⟩ | ⟨hk, hs⟩⟩ <;> rw [h] at hs
  · exact Host.Outcome.next.inj hs ▸ inv
  · exact Host.Outcome.next.inj hs ▸ inv.poll hk
  · rcases State.runInstruction_next_cases hs.symm with ⟨_, -, rfl⟩ | ⟨_, -, rfl⟩ | ⟨i, hf, he⟩
    · exact inv.raise _ _ _
    · exact inv.raise _ _ _
    · exact inv.exec hk hf he

end Sys2Proof.Machine
end

section
namespace Sys2Proof
open Machine

/-- Settles O10: the host's operation is a core step, a tick or a key update, each of which keeps the invariant, and the
schedule is no part of it. -/
theorem everyOperationKeepsTheInvariant : Obligations.EveryOperationKeepsTheInvariant := by
  intro s t inv h
  rcases step_cases s with
    ⟨-, hs⟩ | ⟨-, ⟨-, hs⟩ | ⟨l, -, hs⟩ | ⟨l, -, hs⟩ | ⟨m, l, -, hs⟩⟩ <;> rw [h] at hs
  · exact Host.Outcome.next.inj hs ▸ inv
  · exact inv.coreStep hs.symm
  · exact (inv.setSchedule l).coreStep hs.symm
  · exact Host.Outcome.next.inj hs ▸ (inv.setSchedule l).tick
  · exact Host.Outcome.next.inj hs ▸ (inv.setSchedule l).setKeys m

end Sys2Proof
end

section
/-! Runs and sessions: every operation answers a next state, a property kept by every operation is kept by every run,
and the state a session starts from. -/
namespace Sys2Proof.Machine

/-! ## Runs -/

theorem State.coreStep_next (s : State) : ∃ t, s.coreStep = .next t := by
  rcases s.coreStep_cases with ⟨-, h⟩ | ⟨-, ⟨_, _, -, h⟩ | ⟨-, h⟩⟩
  · exact ⟨_, h⟩
  · exact ⟨_, h⟩
  · rcases s.runInstruction_cases with ⟨_, -, hr⟩ | ⟨_, _, -, -, hr⟩ | ⟨_, i, -, -, hr⟩
    · exact ⟨_, h.trans hr⟩
    · exact ⟨_, h.trans hr⟩
    · exact (exec_cases i s).imp fun _ he => h.trans (hr.trans he.1)

theorem step_next (s : State) : ∃ t, step s = .next t := by
  rcases step_cases s with
    ⟨-, h⟩ | ⟨-, ⟨-, h⟩ | ⟨l, -, h⟩ | ⟨l, -, h⟩ | ⟨m, l, -, h⟩⟩
  · exact ⟨_, h⟩
  · exact s.coreStep_next.imp fun _ => h.trans
  · exact (s.setSchedule l).coreStep_next.imp fun _ => h.trans
  · exact ⟨_, h⟩
  · exact ⟨_, h⟩

/-- A run goes on from the state its first operation answers. -/
theorem run_succ {s t : State} (k : Nat) (h : step s = .next t) :
    Sys2Proof.core.run (k + 1) s = Sys2Proof.core.run k t := by
  have hcore : Sys2Proof.core.step s = .next t := h
  simp only [Host.Core.run, hcore]

/-- THE INDUCTION OVER RUNS: what every operation keeps holds of the state that a run of any length answers. -/
theorem run_invariant {P : State → Prop} (kept : ∀ s t, P s → step s = .next t → P t) (k : Nat) {s : State}
    (h : P s) : ∃ t, Sys2Proof.core.run k s = .next t ∧ P t := by
  induction k generalizing s with
  | zero => exact ⟨s, rfl, h⟩
  | succ k ih =>
    obtain ⟨u, hu⟩ := step_next s
    obtain ⟨t, ht, hP⟩ := ih (kept s u h hu)
    exact ⟨t, (run_succ k hu).trans ht, hP⟩

/-! ## The configuration -/

@[simp] theorem State.tick_config (s : State) : s.tick.config = s.config := by
  by_cases hf : s.FAULT = none
  · rw [s.tick_of_running hf]; rfl
  · rw [s.tick_of_fault hf]

theorem State.poll_config (s : State) (dst : Reg) (prev : Word) : (s.poll dst prev).config = s.config := by
  rcases s.poll_cases dst prev with ⟨-, h⟩ | ⟨_, -, -, -, h⟩ <;> rw [h] <;> rfl

theorem State.coreStep_config {s t : State} (h : s.coreStep = .next t) : t.config = s.config := by
  rcases s.coreStep_cases with ⟨-, hs⟩ | ⟨-, ⟨dst, prev, -, hs⟩ | ⟨-, hs⟩⟩ <;> rw [h] at hs
  · rw [Host.Outcome.next.inj hs]
  · rw [Host.Outcome.next.inj hs, s.poll_config]
  · rcases State.runInstruction_next_cases hs.symm with ⟨_, -, rfl⟩ | ⟨_, -, rfl⟩ | ⟨_, -, he⟩
    · rfl
    · rfl
    · exact (exec_keeps he).config

/-- No operation writes the configuration (R9). -/
theorem step_config {s t : State} (h : step s = .next t) : t.config = s.config := by
  rcases step_cases s with
    ⟨-, hs⟩ | ⟨-, ⟨-, hs⟩ | ⟨l, -, hs⟩ | ⟨l, -, hs⟩ | ⟨m, l, -, hs⟩⟩ <;> rw [h] at hs
  · rw [Host.Outcome.next.inj hs]
  · exact State.coreStep_config hs.symm
  · exact State.coreStep_config (s := s.setSchedule l) hs.symm
  · rw [Host.Outcome.next.inj hs]; exact (s.setSchedule l).tick_config
  · rw [Host.Outcome.next.inj hs]; rfl

/-! ## Loading -/

/-- A program that fits is a block stored at 0x200 (R242). -/
theorem State.load_of_fits (s : State) {p : List Byte} (h : programFits p) : s.load p = s.writeBytes 0x200 p :=
  if_pos h

/-- A program that does not fit is a fault entry that names 0x200 (R242). -/
theorem State.load_of_not_fits (s : State) {p : List Byte} (h : ¬ programFits p) :
    s.load p = { s with FAULT := some { kind := .programTooLarge, pc := 0x200, word := none, addr := none } } :=
  if_neg h

theorem State.load_config (s : State) (p : List Byte) : (s.load p).config = s.config := by
  by_cases h : programFits p
  · rw [s.load_of_fits h, State.writeBytes_config]
  · rw [s.load_of_not_fits h]

/-- Construction with a well-formed configuration meets the invariant (R40, R240). -/
theorem SessionInv.construct {c : Config} (h : c.wf) : SessionInv (State.construct c) where
  config := h
  memory := Memory.wf_construct c
  index  := by simp [State.construct]
  pc     := by simp [State.construct]
  stack  := fun _ hk => absurd hk (Nat.not_lt_zero _)
  wait   := nofun

/-- A load into a session that waits for no key keeps the invariant: an accepted program ends at 0xFFF or below. -/
theorem SessionInv.load {s : State} (inv : SessionInv s) (hk : s.KW = .none) (p : List Byte) :
    SessionInv (s.load p) := by
  by_cases h : programFits p
  · have inside : 0x200 + p.length ≤ 4096 := by unfold programFits at h; omega
    rw [s.load_of_fits h, s.writeBytes_eq]
    exact ⟨inv.config, s.wf_writeBytes inv.memory 0x200 p inside, inv.index, inv.pc, inv.stack,
      fun _ _ hw => absurd (hk.symm.trans hw) (by simp)⟩
  · rw [s.load_of_not_fits h]
    exact ⟨inv.config, inv.memory, inv.index, inv.pc, inv.stack, inv.wait⟩

/-- Every session starts in the invariant. -/
theorem SessionInv.session {c : Config} (h : c.wf) (p : List Byte) (ops : List HostOp) :
    SessionInv (session c p ops) :=
  ((SessionInv.construct h).load rfl p).setSchedule ops

/-! ## Faults -/

theorem State.ticks_of_fault (s : State) (h : s.FAULT ≠ none) (k : Nat) : s.ticks k = s := by
  induction k with
  | zero => rfl
  | succ k ih => rw [State.ticks, ih, s.tick_of_fault h]

theorem State.poll_FAULT (s : State) (dst : Reg) (prev : Word) : (s.poll dst prev).FAULT = s.FAULT := by
  rcases s.poll_cases dst prev with ⟨-, h⟩ | ⟨_, -, -, -, h⟩ <;> rw [h] <;> rfl

/-- No frame of an instruction has FAULT in it: only the fault entry writes it. -/
theorem Completes.fault {i : Instr} {s t : State} (h : Completes i s t) : t.FAULT = s.FAULT := by
  refine h.frame.fault ?_
  cases i <;> simp [writtenParts, mem_transferParts]

/-- An instruction that records a fault where none was has raised its own error. -/
theorem raisesOwnError_of_fault {i : Instr} {s t : State} (h : exec i s = .next t) (hs : s.FAULT = none)
    (ht : t.FAULT ≠ none) : RaisesOwnError i s t :=
  (exec_next_cases h).resolve_right fun hc => ht (hc.fault.trans hs)

/-- An instruction that records no fault has completed. -/
theorem completes_of_no_fault {i : Instr} {s t : State} (h : exec i s = .next t) (ht : t.FAULT = none) :
    Completes i s t := by
  rcases exec_next_cases h with ⟨_, _, -, -, rfl⟩ | hc
  · exact absurd ht (by simp)
  · exact hc

theorem errorOf_ne_programTooLarge (i : Instr) : errorOf i ≠ some .programTooLarge := by
  cases i <;> simp [errorOf]

end Sys2Proof.Machine
end

section
namespace Sys2Proof
open Machine

/-- Settles O7: each operation answers the state itself, and so do a run and a number of ticks by induction. -/
theorem faultedSessionIsFrozen : Obligations.FaultedSessionIsFrozen := by
  intro s k hf
  have still : ∀ u t, u = s → step u = .next t → t = s := by
    rintro u t rfl h
    exact (Host.Outcome.next.inj ((step_of_fault u (Option.isSome_iff_ne_none.2 hf)).symm.trans h)).symm
  obtain ⟨t, ht, rfl⟩ := run_invariant (P := (· = s)) still k rfl
  rcases t.coreStep_cases with ⟨-, hc⟩ | ⟨hn, -⟩
  · exact ⟨ht, hc, t.ticks_of_fault hf k⟩
  · exact absurd hn hf

/-- Settles O8: a poll records nothing; a failed fetch, an illegal word and an instruction's own error are each one
fault entry, whose record is read off. -/
theorem faultsArePrecise : Obligations.FaultsArePrecise := by
  intro s t r hs h hr
  rcases s.coreStep_cases with ⟨hf, -⟩ | ⟨-, ⟨dst, prev, -, hc⟩ | ⟨-, hc⟩⟩
  · exact absurd hs hf
  · obtain rfl := Host.Outcome.next.inj (h.symm.trans hc)
    rw [s.poll_FAULT, hs] at hr
    exact absurd hr (by simp)
  · rcases State.runInstruction_next_cases (hc.symm.trans h) with
      ⟨a, hfetch, rfl⟩ | ⟨w, hfetch, rfl⟩ | ⟨i, hfetch, he⟩
    · cases hr
      simp [hfetch, State.raise]
    · cases hr
      simp [hfetch, State.raise]
    · obtain ⟨k, a, hk, ha, rfl⟩ := raisesOwnError_of_fault he hs (by simp [hr])
      cases hr
      have hne : k ≠ .programTooLarge := fun hke => errorOf_ne_programTooLarge i (hke ▸ hk)
      simp [hfetch, State.raise, ha, hne]

/-- Settles O9: each operation answers a next state, and a run is a chain of them. -/
theorem everyOperationAnswersANextState : Obligations.EveryOperationAnswersANextState := by
  refine fun s k => ⟨step_next s, ?_⟩
  obtain ⟨t, ht, -⟩ := run_invariant (P := fun _ => True) (fun _ _ _ _ => trivial) k (s := s) trivial
  exact ⟨t, ht⟩

/-- Settles O12: a session starts in the invariant, and its run keeps it and the configuration. -/
theorem everySessionStaysInBounds : Obligations.EverySessionStaysInBounds := by
  intro c p ops k hc
  have start : SessionInv (session c p ops) ∧ (session c p ops).config = c :=
    ⟨SessionInv.session hc p ops, (State.construct c).load_config p⟩
  obtain ⟨t, ht, inv, rfl⟩ := run_invariant (P := fun s => SessionInv s ∧ s.config = c)
    (fun s t hs h => ⟨everyOperationKeepsTheInvariant s t hs.1 h, (step_config h).trans hs.2⟩) k start
  exact ⟨t, ht, inv.index, inv.pc, inv.memory, inv.stack⟩

/-- Settles O13: neither an operation nor a load writes the configuration. -/
theorem configurationIsFixed : Obligations.ConfigurationIsFixed :=
  ⟨fun _ _ h => step_config h, fun s p _ => ⟨s.tick_config, rfl, s.load_config p⟩⟩

/-- Settles O16: an accepted program is a stored block; a rejected one is a fault entry, after which nothing
changes. -/
theorem loadPlacesTheProgram : Obligations.LoadPlacesTheProgram := by
  refine fun c p => ⟨fun h => ?_, fun h => ?_⟩
  · rw [State.load_of_fits _ h]
    refine ⟨State.readByte_writeBytes _ (Memory.wf_construct c) 0x200 p (by omega), ?_⟩
    constructor <;> simp
  · rw [State.load_of_not_fits _ (Nat.not_le.2 h)]
    exact ⟨raisesIn_raise (State.construct c) _ _ _, step_of_fault _ rfl⟩

/-- Settles O11: reset is construction with the default configuration, which is well formed. -/
theorem constructionMeetsTheInvariant : Obligations.ConstructionMeetsTheInvariant :=
  ⟨fun _ h => SessionInv.construct h, SessionInv.construct (by decide)⟩

end Sys2Proof
end

section
/-! Frames and values that the statements about single instructions, timers and the poll read off. -/
namespace Sys2Proof.Machine

/-! ## Timers -/

/-- A count down is a subtraction that stops at 0 (R222). -/
theorem countDown_toNat (b : Byte) : (countDown b).toNat = b.toNat - 1 := by
  unfold countDown
  split
  case isTrue h => rw [h]; rfl
  case isFalse h =>
    have pos : b.toNat ≠ 0 := fun h0 => h (BitVec.eq_of_toNat_eq h0)
    rw [BitVec.toNat_sub]
    simp; omega

/-- A tick of a running session writes the two timers and nothing else (R222). -/
theorem State.tick_eq (s : State) (hf : s.FAULT = none) :
    s.tick = { s with DT := countDown s.DT, ST := countDown s.ST } :=
  s.tick_of_running hf

/-! ## Fetch -/

theorem wordOfBytes_toNat (hi lo : Byte) : (wordOfBytes hi lo).toNat = 256 * hi.toNat + lo.toNat := by
  show (hi ++ lo).toNat = _
  rw [BitVec.toNat_append, ← Nat.shiftLeft_add_eq_or_of_lt lo.isLt, Nat.shiftLeft_eq]
  omega

/-- Two bytes that decode and leave nothing are a word that decodes. -/
theorem decodeWord_of_decodeBytes {hi lo : Byte} {i : Instr} (h : decodeBytes [hi, lo] = .ok (i, [])) :
    decodeWord (wordOfBytes hi lo) = .ok i := by
  cases hd : decodeWord (wordOfBytes hi lo) with
  | ok j =>
    rw [decodeBytes, hd] at h
    obtain ⟨rfl, -⟩ := Prod.mk.inj (Except.ok.inj h)
    rfl
  | error e =>
    rw [decodeBytes, hd] at h
    exact absurd h nofun

/-! ## Skips and flags -/

/-- Where a skip on a key leaves pc (R191, R192). -/
theorem State.skipIf_beq_pc (s : State) (b pressed : Bool) :
    (s.skipIf (b == pressed)).pc = if b = pressed then s.pc + 4 else s.pc + 2 := by
  rw [State.skipIf_pc]
  cases b <;> cases pressed <;> rfl

/-- An instruction that writes a flag and a result answers them as numbers, in the order of `VF_WRITE_ORDER`, within its
frame (R131). -/
theorem exists_writeFlagResult {i : Instr} {s : State} {x : Reg} {f r : Byte} {fn rn : Nat}
    (h : exec i s = .next (s.writeFlagResult x f r).advance) (hf : f.toNat = fn) (hr : r.toNat = rn) :
    ∃ t, exec i s = .next t ∧ t.pc = s.pc + 2 ∧ Keeps [x, vf] [.pc] s t ∧ HoldsFlagAndResult s x fn rn t := by
  subst hf hr
  exact ⟨_, h, writeFlagResult_advance_pc s x f r, keeps_writeFlagResult s x f r, holds_writeFlagResult s x f r⟩

/-- The difference of two bytes as numbers (R130). -/
theorem toNat_sub_byte (a b : Byte) : (a - b).toNat = (a.toNat + 256 - b.toNat) % 256 := by
  rw [BitVec.toNat_sub]; omega

/-- The operand of a shift, by `SHIFT_SOURCE` (R140, R142). -/
theorem State.shiftOperand_eq (s : State) (x y : Reg) :
    s.shiftOperand x y = if s.config.shiftSource = .X then s.getV x else s.getV y := by
  unfold State.shiftOperand
  cases s.config.shiftSource <;> rfl

theorem shiftedOutRight_toNat (v : Byte) : (shiftedOutRight v).toNat = v.toNat % 2 := by
  simp [shiftedOutRight]

theorem shiftedOutLeft_toNat (v : Byte) : (shiftedOutLeft v).toNat = v.toNat / 128 := by
  simp [shiftedOutLeft, Nat.shiftRight_eq_div_pow]

/-! ## The poll -/

/-- The keys newly pressed are those pressed now and not before (R195). -/
theorem newlyPressed_eq_zero_iff (now prev : Word) :
    newlyPressed now prev = 0 ↔ ∀ k : Reg, now.getLsbD k.val = true → prev.getLsbD k.val = true := by
  rw [← keysOf_eq_nil, List.eq_nil_iff_forall_not_mem]
  refine forall_congr' fun k => ?_
  rw [mem_keysOf]
  simp [newlyPressed, k.isLt]

/-- A completed key-wait: its frame (R195, R197). -/
theorem keeps_completed_wait (s : State) (dst : Reg) (b : Byte) :
    Keeps [dst] [.KW, .pc, .draws] s (((s.setV dst b).setKW .none).countDraw).advance := by
  have other : ∀ q, q ∉ [dst] →
      (((s.setV dst b).setKW .none).countDraw).advance.getV q = s.getV q := fun q hq =>
    s.getV_setV_ne dst q b (List.ne_of_not_mem_cons hq)
  constructor
  case regs => exact other
  all_goals simp

end Sys2Proof.Machine
end

section
namespace Sys2Proof
open Machine

/-- Settles O5: the two bytes are the word fetched, which decodes to the instruction the core's step then runs. -/
theorem stepRunsTheInstructionAtPc : Obligations.StepRunsTheInstructionAtPc := by
  intro s i hf hk hpc hd
  have hfetch := (s.fetch_eq_ok _).2 ⟨hpc, rfl⟩
  have run := s.runInstruction_of_ok _ i hfetch (decodeWord_of_decodeBytes hd)
  refine ⟨fun hs => ?_, fun l hs => ?_⟩
  · rw [step_of_running hf hk (.inl ⟨hs, rfl⟩), run]
  · rw [step_of_running hf hk (.inr ⟨l, hs, rfl⟩)]
    exact State.runInstruction_of_ok (s.setSchedule l) _ i hfetch (decodeWord_of_decodeBytes hd)

/-- Settles O6: a fetch inside memory reads the two bytes, high byte first; one that leaves it is the fault entry. -/
theorem fetchIsBigEndianAndChecked : Obligations.FetchIsBigEndianAndChecked := by
  refine fun s => ⟨fun h => ?_, fun h hf hk u hsu => ?_⟩
  · exact ⟨_, (s.fetch_eq_ok _).2 ⟨h, rfl⟩, wordOfBytes_toNat _ _⟩
  · have hfetch : u.fetch = .error (if 4096 ≤ s.pc.toNat then s.pc.toNat else s.pc.toNat + 1) := by
      rw [s.stepsFrom_eq u hsu]
      exact (s.fetch_eq_error _).2 ⟨h, rfl⟩
    exact ⟨_, (step_of_running hf hk hsu).trans (u.runInstruction_of_error _ hfetch), raisesIn_raise u _ _ _⟩

/-- Settles O14: each part is read off the construction, and a byte outside the font is initially 0. -/
theorem constructionZeroesTheState : Obligations.ConstructionZeroesTheState := by
  refine fun c _ => ⟨fun r => ?_, rfl, rfl, rfl, rfl, rfl, Display.pixel_clear, rfl, rfl, rfl, fun a ha => ?_⟩
  · simp [State.construct, State.getV]
  · have outside : ¬ (c.fontBase ≤ a ∧ a < c.fontBase + 80) := fun h => ha (a - c.fontBase) (by omega) (by omega)
    rw [State.readByte_construct, initialByte, if_neg outside]

/-- Settles O17: the scheduled operation runs on the state without the schedule's first entry. -/
theorem scheduledHostOperationsRun : Obligations.ScheduledHostOperationsRun := by
  refine fun s l m hf => ⟨fun hs => ?_, fun hs => step_of_setKeys s m l hf hs⟩
  have tick := (s.setSchedule l).tick_eq hf
  refine ⟨_, (step_of_tick s l hf hs).trans (congrArg _ tick), rfl, ?_, ?_, rfl⟩
  · exact countDown_toNat s.DT
  · exact countDown_toNat s.ST

/-- Settles O22: both skips write pc alone; with N other than 0 the word is listed in R80. -/
theorem skipsOnTwoRegisters : Obligations.SkipsOnTwoRegisters := by
  intro x y s
  refine ⟨decodeWord_encode (.seReg x y), decodeWord_encode (.sneReg x y), fun n hn v u hf hk hsu hw => ?_,
    ⟨_, rfl, s.skipIf_decide_pc (s.getV x = s.getV y), keeps_setPc s _⟩,
    ⟨_, rfl, s.skipIf_decide_pc (s.getV x ≠ s.getV y), keeps_setPc s _⟩⟩
  have listed : ∀ op : Nibble, op = 0x5 ∨ op = 0x9 → ListedIllegal (wordXYN op (fieldOf x) (fieldOf y) n) :=
    fun op hop => .inr (.inl (by simpa using ⟨hop, hn⟩))
  rcases hw with hw | hw
  · exact step_of_listedIllegal hf hk hsu hw (listed _ (.inl rfl))
  · exact step_of_listedIllegal hf hk hsu hw (listed _ (.inr rfl))

/-- Settles O23: the sum of 12 and 8 bits fits in 16, and from 0xFFF on its second byte is outside memory. -/
theorem jpV0AddsRegisterZero : Obligations.JpV0AddsRegisterZero := by
  intro nnn s
  have target := computedTarget_toNat nnn (s.getV 0)
  refine ⟨decodeWord_encode (.jpV0 nnn), _, rfl, target, keeps_setPc s _, fun h => ?_⟩
  exact ⟨_, (State.fetch_eq_error _ _).2 ⟨by rw [State.setPc_pc, target]; omega, rfl⟩⟩

/-- Settles O24: the CALL's push is the top that the RET pops, and every live entry lies below it. -/
theorem callThenRetComesBack : Obligations.CallThenRetComesBack := by
  intro nnn s h
  refine ⟨_, _, exec_call_of_lt nnn s h, exec_ret_of_pos _ (Nat.succ_pos _), Vector.getElem_set_self h, rfl,
    fun k hk => Vector.getElem_set_ne h k.isLt (Nat.ne_of_gt hk), ?_⟩
  exact (keeps_stack_setPc s _ _ _).trans (keeps_stack_setPc _ _ _ _)

/-- Settles O27: the flag is the carry and the result the sum of two bytes. -/
theorem addRegistersCarriesIntoVf : Obligations.AddRegistersCarriesIntoVf := fun x y _ =>
  ⟨decodeWord_encode (.addReg x y), exists_writeFlagResult rfl (flagByte_toNat _) (BitVec.toNat_add _ _)⟩

/-- Settles O28: the flag is the not-borrow and the result the difference of two bytes. -/
theorem subtractionsSetNotBorrow : Obligations.SubtractionsSetNotBorrow := fun x y _ =>
  ⟨decodeWord_encode (.subReg x y), decodeWord_encode (.subnReg x y),
    exists_writeFlagResult rfl (flagByte_toNat _) (toNat_sub_byte _ _),
    exists_writeFlagResult rfl (flagByte_toNat _) (toNat_sub_byte _ _)⟩

/-- Settles O29: the bit shifted out and the shifted value as numbers; with `SHIFT_SOURCE = X` the operand does not
depend on Y. -/
theorem shiftsMoveOneBitIntoVf : Obligations.ShiftsMoveOneBitIntoVf := by
  intro x y s
  simp only [← s.shiftOperand_eq x y]
  refine ⟨decodeWord_encode (.shr x y), decodeWord_encode (.shl x y),
    exists_writeFlagResult rfl (shiftedOutRight_toNat _) ?_, exists_writeFlagResult rfl (shiftedOutLeft_toNat _) ?_,
    fun hX y' => ?_⟩
  · simp [Nat.shiftRight_eq_div_pow]
  · simp [Nat.shiftLeft_eq, Nat.mul_comm]
  · have operand : s.shiftOperand x y = s.shiftOperand x y' := by
      rw [s.shiftOperand_eq, s.shiftOperand_eq, if_pos hX, if_pos hX]
    exact ⟨by simp only [exec, execShr, operand], by simp only [exec, execShl, operand]⟩

/-- Settles O30: a byte masked by NN has no bit outside NN, whatever the byte. -/
theorem rndMasksTheFreeByte : Obligations.RndMasksTheFreeByte := by
  intro x nn s
  have value := s.getV_setV_same x (s.drawByte &&& nn)
  refine ⟨decodeWord_encode (.rnd x nn), _, rfl, value, ?_, rfl, rfl, keeps_setV_countDraw_advance s x _⟩
  refine (congrArg (· &&& ~~~nn) value).trans ?_
  rw [BitVec.and_assoc, BitVec.and_not_self]
  exact BitVec.and_zero

/-- Settles O40: a register up to 0xF names a key and skips on its bit; one above is the fault entry. -/
theorem skipsOnAKey : Obligations.SkipsOnAKey := by
  intro x s
  refine ⟨decodeWord_encode (.skp x), decodeWord_encode (.sknp x), fun h => ⟨?_, ?_⟩, fun h => ⟨?_, ?_⟩⟩
  · exact ⟨_, congrArg Host.Outcome.next (s.skipOnKey_of_le _ _ true h), keeps_setPc s _, s.skipIf_beq_pc _ true⟩
  · exact ⟨_, congrArg Host.Outcome.next (s.skipOnKey_of_le _ _ false h), keeps_setPc s _, s.skipIf_beq_pc _ false⟩
  · exact ⟨_, congrArg Host.Outcome.next (s.skipOnKey_of_gt _ _ true h), raisesIn_raise s _ _ _⟩
  · exact ⟨_, congrArg Host.Outcome.next (s.skipOnKey_of_gt _ _ false h), raisesIn_raise s _ _ _⟩

/-- Settles O41: each is one write and the step past it; the next tick counts the written timer down. -/
theorem timersAreReadAndSet : Obligations.TimersAreReadAndSet := by
  intro x s
  refine ⟨decodeWord_encode (.ldVxDt x), decodeWord_encode (.ldDtVx x), decodeWord_encode (.ldStVx x),
    ⟨_, rfl, s.getV_setV_advance x _, rfl, keeps_setV_advance s x _⟩,
    ⟨_, rfl, rfl, rfl, keeps_setDT_advance s _, fun hf => ?_⟩,
    ⟨_, rfl, rfl, rfl, keeps_setST_advance s _, decide_eq_true_iff⟩⟩
  rw [State.tick_eq (s.setDT (s.getV x)).advance hf]
  exact countDown_toNat (s.getV x)

/-- Settles O42: FX0A writes the key-wait and nothing else. -/
theorem keyWaitBegins : Obligations.KeyWaitBegins := fun x s =>
  ⟨decodeWord_encode (.ldVxK x), _, rfl, rfl, keeps_setKW s _⟩

/-- Settles O43: with no key newly pressed there is none to draw and the poll only remembers; with one the poll draws a
key and completes. -/
theorem keyWaitPolls : Obligations.KeyWaitPolls := by
  intro s u dst prev hf hsu hk
  have polls : step s = .next (u.poll dst prev) := by
    rw [step_of_stepsFrom hf hsu, s.stepsFrom_eq u hsu]
    exact State.coreStep_of_waiting _ dst prev hf hk
  have hK : u.K = s.K := by rw [s.stepsFrom_eq u hsu]; rfl
  have hpc : u.pc = s.pc := by rw [s.stepsFrom_eq u hsu]; rfl
  have none_new := newlyPressed_eq_zero_iff u.K prev
  rw [← hK, ← hpc, polls]
  rcases u.poll_cases dst prev with ⟨h0, hp⟩ | ⟨k, hdraw, hnow, hprev, hp⟩ <;> rw [hp]
  · refine ⟨fun _ => ⟨_, rfl, rfl, keeps_setKW u _⟩, fun ⟨k, hnow, hprev⟩ => ?_⟩
    exact absurd ((none_new.1 h0 k hnow).symm.trans hprev) (by decide)
  · refine ⟨fun h => absurd ((h k hnow).symm.trans hprev) (by decide), fun _ => ?_⟩
    have value : (((u.setV dst (BitVec.ofNat 8 k.val)).setKW .none).countDraw).advance.getV dst = BitVec.ofNat 8 k.val :=
      u.getV_setV_same dst _
    exact ⟨_, k, rfl, hnow, hprev, by rw [value]; simp; omega, rfl, rfl, keeps_completed_wait u dst _⟩

/-- Settles O44: a tick of a running session counts both timers down; one after a fault is nothing. -/
theorem tickCountsBothTimersDown : Obligations.TickCountsBothTimersDown := by
  refine fun s => ⟨fun hf => ?_, s.tick_of_fault⟩
  rw [s.tick_eq hf]
  refine ⟨rfl, (countDown_toNat s.DT).trans ?_, (countDown_toNat s.ST).trans ?_⟩
  · split <;> omega
  · split <;> omega

/-- Settles O45, by induction on the number of ticks: no tick records a fault, so each counts both timers down. -/
theorem manyTicksCountDownToZero : Obligations.ManyTicksCountDownToZero := by
  intro s n hf
  induction n with
  | zero => exact ⟨rfl, rfl, rfl⟩
  | succ n ih =>
    obtain ⟨hDT, hST, hrest⟩ := ih
    have running : (s.ticks n).FAULT = none := by rw [hrest]; exact hf
    rw [State.ticks, State.tick_eq _ running]
    refine ⟨?_, ?_, ?_⟩
    · show (countDown (s.ticks n).DT).toNat = _
      rw [countDown_toNat, hDT]; omega
    · show (countDown (s.ticks n).ST).toNat = _
      rw [countDown_toNat, hST]; omega
    · conv_lhs => rw [hrest]

/-- Settles O52: both forms of `stepsFrom`. -/
theorem stepIsTheCoreStep : Obligations.StepIsTheCoreStep := fun _ hf =>
  ⟨fun hs => step_of_stepsFrom hf (.inl ⟨hs, rfl⟩), fun l hs => step_of_stepsFrom hf (.inr ⟨l, hs, rfl⟩)⟩

end Sys2Proof
end

section
/-! The block transfers FX55 and FX65 and the sprite draw DXYN, on either side of their bounds. -/
namespace Sys2Proof.Machine

/-! ## FX55 and FX65 -/

/-- FX55 with its range inside memory stores the registers (R164). -/
theorem exec_storeRegs_of_lt (x : Reg) (s : State) (h : s.I.toNat + x.val < 4096) :
    exec (.storeRegs x) s =
      .next ((s.writeBytes s.I.toNat (s.regsUpTo x)).setI (s.indexAfterTransfer x)).advance :=
  congrArg Host.Outcome.next (s.guardRange_of_le _ _ (x.val + 1) _ (.inr (by omega)))

/-- FX55 with an address past memory is the fault entry (R68, R164). -/
theorem exec_storeRegs_of_ge (x : Reg) (s : State) (h : 4096 ≤ s.I.toNat + x.val) :
    exec (.storeRegs x) s =
      .next (s.raise .memoryOutOfBounds (some (encode (.storeRegs x))) (some (max s.I.toNat 4096))) :=
  congrArg Host.Outcome.next (s.guardRange_of_gt _ _ (x.val + 1) _ (by omega) (by omega))

/-- FX65 with its range inside memory loads the registers (R165). -/
theorem exec_loadRegs_of_lt (x : Reg) (s : State) (h : s.I.toNat + x.val < 4096) :
    exec (.loadRegs x) s =
      .next ((s.fillFromV0 (s.readBytes s.I.toNat (x.val + 1))).setI (s.indexAfterTransfer x)).advance :=
  congrArg Host.Outcome.next (s.guardRange_of_le _ _ (x.val + 1) _ (.inr (by omega)))

/-- FX65 with an address past memory is the fault entry (R68, R165). -/
theorem exec_loadRegs_of_ge (x : Reg) (s : State) (h : 4096 ≤ s.I.toNat + x.val) :
    exec (.loadRegs x) s =
      .next (s.raise .memoryOutOfBounds (some (encode (.loadRegs x))) (some (max s.I.toNat 4096))) :=
  congrArg Host.Outcome.next (s.guardRange_of_gt _ _ (x.val + 1) _ (by omega) (by omega))

/-- The registers FX55 stored, read back where it put them (R164). -/
theorem State.readByte_writeBytes_regsUpTo (s : State) (hm : Memory.wf s.config s.MEM) (x : Reg)
    (h : s.I.toNat + x.val < 4096) (k : Reg) (hk : k ≤ x) :
    (s.writeBytes s.I.toNat (s.regsUpTo x)).readByte (s.I.toNat + k.val) = s.getV k := by
  have inside : k.val < (s.regsUpTo x).length := by rw [s.regsUpTo_length]; exact Nat.lt_succ_of_le hk
  rw [s.readByte_writeBytes_add hm _ _ (by rw [s.regsUpTo_length]; exact h) k.val inside, s.regsUpTo_getD x k hk]

/-- The registers FX65 loads and those it leaves (R165). -/
theorem State.getV_fillFromV0_readBytes (s : State) (x k : Reg) (a : Nat) :
    (s.fillFromV0 (s.readBytes a (x.val + 1))).getV k = if k ≤ x then s.readByte (a + k.val) else s.getV k := by
  have bound : k.val < (s.readBytes a (x.val + 1)).length ↔ k ≤ x := by
    rw [s.readBytes_length, Nat.lt_succ_iff, Fin.le_def]
  rw [State.getV_fillFromV0]
  by_cases h : k ≤ x
  · rw [if_pos (bound.2 h), if_pos h, s.readBytes_getD _ _ _ (Nat.lt_succ_of_le h)]
  · rw [if_neg (mt bound.1 h), if_neg h]

/-! ## DXYN -/

/-- DXYN with its sprite inside memory draws and leaves the collision in VF (R181). -/
theorem exec_drw_of_le (x y : Reg) (n : Nibble) (s : State) (h : n = 0 ∨ s.I.toNat + n.toNat ≤ 4096) :
    exec (.drw x y n) s =
      .next ((s.setD (s.drawn x y n).1).setV vf (flagByte (s.drawn x y n).2)).advance :=
  congrArg Host.Outcome.next (s.guardRange_of_le _ _ n.toNat _ (h.imp_left fun h0 => by rw [h0]; rfl))

/-- DXYN with a sprite byte past memory is the fault entry (R68, R181). -/
theorem exec_drw_of_gt (x y : Reg) (n : Nibble) (s : State) (h0 : n ≠ 0) (h : 4096 < s.I.toNat + n.toNat) :
    exec (.drw x y n) s =
      .next (s.raise .memoryOutOfBounds (some (encode (.drw x y n))) (some (max s.I.toNat 4096))) :=
  have rows : n.toNat ≠ 0 := fun hz => h0 (BitVec.eq_of_toNat_eq hz)
  congrArg Host.Outcome.next (s.guardRange_of_gt _ _ n.toNat _ rows h)

/-- What DXYN draws: a sprite has at most 15 rows, so no pixel is met twice (R181, R183). -/
theorem State.drawn_spec (s : State) (x y : Reg) (n : Nibble) :
    (∀ r c, (s.drawn x y n).1.pixel r c = true ↔ (s.D.pixel r c = true ↔ ¬ s.spriteCovers x y n r c)) ∧
    ((s.drawn x y n).2 = true ↔ ∃ r c, s.spriteCovers x y n r c ∧ s.D.pixel r c = true) :=
  drawSprite_spec _ _ _ _ (by rw [s.readBytes_length]; omega) s.D

theorem flagByte_eq_zero_or_one (b : Bool) : flagByte b = 0 ∨ flagByte b = 1 := by
  cases b <;> decide

theorem flagByte_eq_one_iff (b : Bool) : flagByte b = 1 ↔ b = true := by
  cases b <;> decide

/-- Where a sprite lands depends on the two coordinates, I, the edge policy and memory alone. -/
theorem spriteCovers_congr {s t : State} {x y : Reg} (n : Nibble) (hx : t.getV x = s.getV x) (hy : t.getV y = s.getV y)
    (hI : t.I = s.I) (hc : t.config = s.config) (hm : ∀ a, t.readByte a = s.readByte a) (r : Fin 32) (c : Fin 64) :
    t.spriteCovers x y n r c ↔ s.spriteCovers x y n r c := by
  unfold State.spriteCovers State.readBytes
  simp only [hx, hy, hI, hc, hm]

end Sys2Proof.Machine
end

section
namespace Sys2Proof
open Machine

/-- Settles O33: inside memory FX55 is a stored block of registers and a write of I; past memory it is the fault
entry. -/
theorem storeRegistersToMemory : Obligations.StoreRegistersToMemory := by
  refine fun x s => ⟨decodeWord_encode (.storeRegs x), fun h hm => ?_, fun h => ?_⟩
  · have fits : s.I.toNat + (s.regsUpTo x).length ≤ 4096 := by rw [s.regsUpTo_length]; exact h
    refine ⟨_, exec_storeRegs_of_lt x s h, s.readByte_writeBytes_regsUpTo hm x h, fun a ha => ?_,
      s.indexAfterTransfer_toNat x, congrArg (· + 2) (s.writeBytes_pc _ _), ?_⟩
    · exact s.readByte_writeBytes_outside hm _ _ fits a (by rw [s.regsUpTo_length]; omega)
    · exact (keeps_writeBytes_setI_advance s _ _ _).mono (List.Subset.refl _) (by decide)
  · exact ⟨_, exec_storeRegs_of_ge x s h, raisesIn_raise s _ _ _⟩

/-- Settles O34: inside memory FX65 fills V0..VX from a block read and writes I; past memory it is the fault entry. -/
theorem loadRegistersFromMemory : Obligations.LoadRegistersFromMemory := by
  refine fun x s => ⟨decodeWord_encode (.loadRegs x), fun h => ?_, fun h => ?_⟩
  · exact ⟨_, exec_loadRegs_of_lt x s h, fun k hk => (s.getV_fillFromV0_readBytes x k _).trans (if_pos hk),
      s.indexAfterTransfer_toNat x, rfl, keeps_fillFromV0_setI_advance s x _ (s.readBytes_length _ _) _⟩
  · exact ⟨_, exec_loadRegs_of_ge x s h, raisesIn_raise s _ _ _⟩

/-- Settles O35: the load reads the block that the store left, whatever the registers hold in between. -/
theorem storeThenLoadRestoresRegisters : Obligations.StoreThenLoadRestoresRegisters := by
  intro x s v h hm
  obtain ⟨t, ht, stored, -⟩ := (storeRegistersToMemory x s).2.1 h hm
  refine ⟨t, _, ht, exec_loadRegs_of_lt x { t with x := v, I := s.I } h, fun k hk => ?_, fun k hk => ?_⟩
  · exact ((State.getV_fillFromV0_readBytes _ x k _).trans (if_pos hk)).trans (stored k hk)
  · exact (State.getV_fillFromV0_readBytes _ x k _).trans (if_neg (not_le.2 hk))

/-- Settles O36: pc is then the address of the block, whose first two bytes are V0 and V1. -/
theorem storedCodeIsFetchedNext : Obligations.StoredCodeIsFetchedNext := by
  intro x s hx hI h hm
  obtain ⟨t, ht, stored, -, -, hpc, -⟩ := (storeRegistersToMemory x s).2.1 h hm
  have here : t.pc.toNat = s.I.toNat := by rw [hpc, hI]
  refine ⟨t, ht, (t.fetch_eq_ok _).2 ⟨by omega, ?_⟩⟩
  have high : t.readByte s.I.toNat = s.getV 0 := stored 0 (Fin.zero_le x)
  have low : t.readByte (s.I.toNat + 1) = s.getV 1 := stored 1 hx
  rw [here, high, low]

/-- Settles O38: inside memory DXYN leaves the drawn display and its collision; past memory it is the fault entry. -/
theorem drawTurnsOverCoveredPixels : Obligations.DrawTurnsOverCoveredPixels := by
  refine fun x y n s => ⟨decodeWord_encode (.drw x y n), fun h => ?_, fun h0 h => ?_⟩
  · obtain ⟨pixels, collision⟩ := s.drawn_spec x y n
    have flag : (((s.setD (s.drawn x y n).1).setV vf (flagByte (s.drawn x y n).2)).advance).getV vf =
        flagByte (s.drawn x y n).2 := State.getV_setV_advance _ vf _
    refine ⟨_, exec_drw_of_le x y n s h, pixels, ?_, ?_, rfl, keeps_setD_setV_advance s _ vf _⟩
    · rw [flag]; exact flagByte_eq_zero_or_one _
    · rw [flag]; exact (flagByte_eq_one_iff _).trans collision
  · exact ⟨_, exec_drw_of_gt x y n s h0 h, raisesIn_raise s _ _ _⟩

/-- Settles O39: the second sprite lands where the first did, so each covered pixel is turned over twice; a covered
pixel is on before the second draw exactly when it was off at first. -/
theorem drawTwiceRestoresTheDisplay : Obligations.DrawTwiceRestoresTheDisplay := by
  intro x y n s hx hy h
  obtain ⟨t, ht, pixels, -, -, -, frame⟩ := (drawTurnsOverCoveredPixels x y n s).2.1 h
  have hI : t.I = s.I := frame.index (by decide)
  obtain ⟨u, hu, pixels', -, collision, -⟩ := (drawTurnsOverCoveredPixels x y n t).2.1 (by rw [hI]; exact h)
  have covers := spriteCovers_congr n (frame.regs x (by simpa using hx)) (frame.regs y (by simpa using hy)) hI
    frame.config (frame.memory (by decide))
  simp only [covers] at pixels' collision
  refine ⟨t, u, ht, hu, fun r c => ?_, ?_⟩
  · rw [Bool.eq_iff_iff, pixels', pixels]; tauto
  · rw [collision]
    refine exists_congr fun r => exists_congr fun c => and_congr_right fun hc => ?_
    rw [pixels, ← Bool.not_eq_true]; tauto

end Sys2Proof
end

section
/-! What the rules over all instructions read off from a completed instruction or its error. -/
namespace Sys2Proof.Machine

/-- A display is its pixels. -/
theorem Display.eq_of_pixel_eq {d e : Display} (h : ∀ r c, d.pixel r c = e.pixel r c) : d = e :=
  Vector.ext fun r hr => Vector.ext fun c hc => h ⟨r, hr⟩ ⟨c, hc⟩

/-! ## Registers -/

/-- The registers an instruction writes are those it names and, if it is one of the seven, VF (R22, R23). -/
theorem named_or_flag_of_mem_writes {i : Instr} {r : Reg} (h : r ∈ writes i) :
    r ∈ namedDestinations i ∨ r = vf ∧ writesVfAsFlag i = true := by
  cases i with
  | addReg | subReg | shr | subnReg | shl => simpa [writes, namedDestinations, writesVfAsFlag] using h
  | drw | addI => exact .inr ⟨by simpa [writes] using h, rfl⟩
  | _ => exact .inl h

/-! ## Stored bytes -/

/-- A checked store that passes or raises changes bytes of its range alone (R57). -/
theorem mem_range_of_guarded_store {s body : State} {w : Word} {bs : List Byte} {n a : Nat}
    (hm : Memory.wf s.config s.MEM) (hn : n ≠ 0) (hlen : bs.length = n)
    (hbody : ∀ e, body.readByte e = (s.writeBytes s.I.toNat bs).readByte e)
    (hne : (s.guardRange w s.I.toNat n body).readByte a ≠ s.readByte a) :
    s.I.toNat ≤ a ∧ a < s.I.toNat + n := by
  by_contra hout
  refine hne (State.guardRange_induction (motive := fun t => t.readByte a = s.readByte a) rfl fun hin => ?_)
  rw [hbody, s.readByte_writeBytes_outside hm _ _ (by rw [hlen]; exact hin.resolve_left hn) a (by omega)]

/-! ## The value of VF -/

theorem eq_zero_or_one_of_toNat_lt_two {b : Byte} (h : b.toNat < 2) : b = 0 ∨ b = 1 := by
  rcases Nat.lt_succ_iff_lt_or_eq.1 h with h0 | h1
  · exact .inl (BitVec.eq_of_toNat_eq (Nat.lt_one_iff.1 h0))
  · exact .inr (BitVec.eq_of_toNat_eq h1)

/-- A flag-and-result write with another destination leaves its flag in VF (R131). -/
theorem getV_vf_writeFlagResult (s : State) {x : Reg} (hx : vf ∉ [x]) (f r : Byte) :
    (s.writeFlagResult x f r).advance.getV vf = f := by
  have other : x ≠ vf := fun h => hx (h ▸ .head _)
  rw [State.advance_getV, State.getV_writeFlagResult, if_pos rfl, if_neg fun h => other h.1]

/-- Each of the seven leaves 0 or 1 in VF, unless it names VF or raises (R22). -/
theorem exec_flag {i : Instr} {s t : State} (h : exec i s = .next t) (ht : t.FAULT = none)
    (hflag : writesVfAsFlag i = true) (hn : vf ∉ namedDestinations i) : t.getV vf = 0 ∨ t.getV vf = 1 := by
  cases i with
  | addReg | subReg | subnReg =>
    cases h
    rw [getV_vf_writeFlagResult s hn]
    exact flagByte_eq_zero_or_one _
  | shr =>
    cases h
    rw [getV_vf_writeFlagResult s hn]
    exact eq_zero_or_one_of_toNat_lt_two (by rw [shiftedOutRight_toNat]; omega)
  | shl =>
    cases h
    rw [getV_vf_writeFlagResult s hn]
    exact eq_zero_or_one_of_toNat_lt_two (by rw [shiftedOutLeft_toNat]; omega)
  | addI x =>
    cases h
    show (s.setV vf _).getV vf = 0 ∨ (s.setV vf _).getV vf = 1
    rw [State.getV_setV_same]
    exact flagByte_eq_zero_or_one _
  | drw x y n =>
    cases h
    revert ht
    refine State.guardRange_induction (motive := fun t => t.FAULT = none → t.getV vf = 0 ∨ t.getV vf = 1)
      (fun hr => absurd hr (by simp)) fun _ _ => ?_
    rw [State.getV_setV_advance]
    exact flagByte_eq_zero_or_one _
  | _ => simp [writesVfAsFlag] at hflag

/-! ## Where pc goes -/

theorem pcSteps_of_isSkip {i : Instr} (h : isSkip i = true) : pcSteps i = [2, 4] ∧ isJump i = false := by
  cases i with
  | seImm | sneImm | seReg | sneReg | skp | sknp => exact ⟨rfl, rfl⟩
  | _ => simp [isSkip] at h

theorem pcSteps_of_plain {i : Instr} (hskip : isSkip i = false) (hwait : ∀ x, i ≠ .ldVxK x) : pcSteps i = [2] := by
  cases i with
  | seImm | sneImm | seReg | sneReg | skp | sknp => simp [isSkip] at hskip
  | ldVxK x => exact absurd rfl (hwait x)
  | _ => rfl

end Sys2Proof.Machine
end

section
namespace Sys2Proof
open Machine

/-- Settles O47: the registers are part of every instruction's frame. -/
theorem registersAreWrittenAsTabled : Obligations.RegistersAreWrittenAsTabled :=
  fun _ _ _ r h hr => (exec_keeps h).regs r hr

/-- Settles O46: outside the seven, VF is written only where it is named; each of the seven leaves a flag. -/
theorem onlyFlagInstructionsWriteVf : Obligations.OnlyFlagInstructionsWriteVf := by
  refine ⟨fun i s t h hflag hn => ?_, fun i s t h _ ht hflag hn => exec_flag h ht hflag hn⟩
  refine registersAreWrittenAsTabled i s t vf h fun hw => ?_
  rcases named_or_flag_of_mem_writes hw with hnamed | ⟨-, hf⟩
  · exact hn hnamed
  · exact absurd (hflag.symm.trans hf) (by decide)

/-- Settles O48: memory is in the frame of the two storing forms alone, and a stored block changes its own range. -/
theorem onlyStoresWriteMemory : Obligations.OnlyStoresWriteMemory := by
  intro i s t a hm h hne
  rcases memory_writers (by_contra fun hp => hne ((exec_keeps h).memory hp a)) with ⟨x, rfl⟩ | ⟨x, rfl⟩
  · cases h
    obtain ⟨lo, hi⟩ := mem_range_of_guarded_store (bs := bcdDigits (s.getV x)) hm (Nat.succ_ne_zero 2) rfl
      (State.advance_readByte _) hne
    exact .inl ⟨x, rfl, lo, Nat.le_of_lt_succ hi⟩
  · cases h
    obtain ⟨lo, hi⟩ := mem_range_of_guarded_store (bs := s.regsUpTo x) hm (Nat.succ_ne_zero x.val)
      (s.regsUpTo_length x) (fun _ => by rw [State.advance_readByte, State.setI_readByte]) hne
    exact .inr ⟨x, rfl, lo, Nat.le_of_lt_succ hi⟩

/-- Settles O49: an element that changed is in the instruction's frame, and the frame says which instruction it is. -/
theorem specialStateHasItsNamedWriters : Obligations.SpecialStateHasItsNamedWriters := by
  intro i s t h
  have frame := exec_keeps h
  refine ⟨fun hne => ?_, fun hne => ?_, fun hne => ?_, fun hne => ?_, fun hne => ?_, fun hne => ?_, frame.keys,
    frame.config, frame.schedule⟩
  · exact display_writers (by_contra fun hp => hne (Display.eq_of_pixel_eq (frame.display hp)))
  · refine stack_writers (c := s.config) (by_contra fun hp => ?_)
    have entries : t.S = s.S := Vector.ext fun k hk => frame.stack hp ⟨k, hk⟩
    exact hne.elim (absurd entries) (absurd (frame.depth hp))
  · exact index_writers (by_contra fun hp => hne (frame.index hp))
  · exact delay_writers (by_contra fun hp => hne (frame.delay hp))
  · exact sound_writers (by_contra fun hp => hne (frame.sound hp))
  · exact keyWait_writers (by_contra fun hp => hne (frame.keyWait hp))

/-- Settles O50: the error recorded is the instruction's own, which the table of `errorOf` gives it. -/
theorem errorsComeFromTheirInstructions : Obligations.ErrorsComeFromTheirInstructions := by
  intro i s t r hs h hr
  obtain ⟨k, a, hk, -, rfl⟩ := raisesOwnError_of_fault h hs (by simp [hr])
  cases hr
  cases i with
  | ret => exact .inl ⟨rfl, (Option.some.inj hk).symm⟩
  | call nnn => exact .inr (.inl ⟨nnn, rfl, (Option.some.inj hk).symm⟩)
  | ldB x | storeRegs x | loadRegs x | skp x | sknp x =>
    exact .inr (.inr (.inl ⟨⟨x, by simp⟩, (Option.some.inj hk).symm⟩))
  | drw x y n => exact .inr (.inr (.inr ⟨⟨x, y, n, rfl⟩, (Option.some.inj hk).symm⟩))
  | _ => simp [errorOf] at hk

/-- Settles O51: an error is a fault entry, which holds pc; without one the instruction has completed and has moved pc
by one of its steps. -/
theorem pcMovesByTwoUnlessSet : Obligations.PcMovesByTwoUnlessSet := by
  intro i s t hs h
  refine ⟨fun ht => ?_, fun ht => ?_⟩
  · obtain ⟨_, _, -, -, rfl⟩ := raisesOwnError_of_fault h hs ht
    rfl
  have moves := (completes_of_no_fault h ht).pc
  refine ⟨fun x hx => ?_, fun hskip => ?_, fun hjump hskip hwait => ?_⟩
  · subst hx
    obtain ⟨d, hd, hpc⟩ := moves rfl
    obtain rfl := List.mem_singleton.1 hd
    exact hpc.trans (BitVec.add_zero s.pc)
  · obtain ⟨steps, hjump⟩ := pcSteps_of_isSkip hskip
    obtain ⟨d, hd, hpc⟩ := moves hjump
    rw [steps] at hd
    rcases List.mem_pair.1 hd with rfl | rfl
    · exact .inl hpc
    · exact .inr hpc
  · obtain ⟨d, hd, hpc⟩ := moves hjump
    rw [pcSteps_of_plain hskip hwait] at hd
    obtain rfl := List.mem_singleton.1 hd
    exact hpc

end Sys2Proof
end
